-- ==== Sys2Proof/Word.lean ====
section
/-! DEFINITION. The two word types of the frame codec (spec/00_scope.md R9, R10). Every quantity is unsigned; lengths and
counts are exact natural numbers (R12), so they are `Nat` and not bit vectors. -/

namespace Sys2Proof

/-- A byte, an unsigned 8-bit value 0..255 (R9). -/
abbrev Byte := BitVec 8

/-- The 64-bit STATUS word (spec/10_state.md R30), the block's only register. -/
abbrev Word64 := BitVec 64

end Sys2Proof
end

