-- ==== Sys2Proof/Config.lean ====
section
/-! DEFINITION. The implementation parameters of spec/00_scope.md R8, the open parameter `N_DEC`, and the one free value. -/

namespace Sys2Proof.Config

/-- `LEN_FIELD_BYTES`, the size of the length field of a wire frame (R8). -/
abbrev lenFieldBytes : Nat := 2

/-- `MAX_PAYLOAD`, the largest payload of one frame, inclusive (R8; spec/90_conflicts.md C1, C2). -/
abbrev maxPayload : Nat := 65535

/-- `MAX_FRAME`, the largest wire frame in bytes (R8). -/
abbrev maxFrame : Nat := lenFieldBytes + maxPayload

/-- `DB_REST_MAX`, the largest Decode Buffer occupancy between operations (R8, spec/10_state.md R25). -/
abbrev dbRestMax : Nat := 65536

/-- `DB_CAP`, the storage the hardware provides for one Decode Buffer (R8, spec/92_eei_decisions.md D3). -/
abbrev dbCap : Nat := 65537

/-- `MAX_ARG`, the largest ENCODE or FEED argument that the 32-bit `LEN` field can express (R8). -/
abbrev maxArg : Nat := 4294967295

/-- How many decoder instances there are beyond the first. OPEN in the spec (R8, D5), so it has no body: nothing can be
proved about its value. Log entry 1. -/
opaque extraDecoders : Nat

/-- `N_DEC`, the number of decoder instances, a model argument, at least 1 (R8, D5). -/
def nDec : Nat := extraDecoders + 1

/-- The free value by which the block chooses between streams that each hold a complete command when the host has not settled
their order (spec/20_memory.md R53: that order is unobservable inside the block). It has no body; the step applies it to
the counter `State.tick`. Log entry 2. -/
opaque freeChoice : Nat → Nat

end Sys2Proof.Config
end

