-- ==== Sys2Proof/Syntax.lean ====
section
/-! DEFINITION. The five operations of the opcode map (spec/30_encoding.md R68), one constructor per row of
spec/opcode_table.json. -/

namespace Sys2Proof

/-- One operation as the host issues it. The stream it is issued on is not part of it (R66). -/
inductive Instr where
  /-- `ENCODE p`: encode one payload into one wire frame (spec/40_encoder.md R85). -/
  | encode (payload : List Byte)
  /-- `FEED c`: append one chunk and emit every frame it completes (spec/41_decoder.md R95). -/
  | feed (chunk : List Byte)
  /-- `CLOSE`: tear the decoder down (spec/41_decoder.md R103). -/
  | close
  /-- `STATUS`: read the STATUS word (spec/42_control.md R120). -/
  | status
  /-- `RESET`: discard the decoder and make a fresh one (spec/42_control.md R121). -/
  | reset
  deriving DecidableEq, Repr

end Sys2Proof
end

