-- ==== Sys2Proof/WellFormed.lean ====
section
/-! DEFINITION. Which operations the command port can express: an argument has at most `MAX_ARG` bytes (spec/00_scope.md R8,
spec/30_encoding.md R67; spec/90_conflicts.md C9). -/

namespace Sys2Proof

/-- The argument of an operation; CLOSE, STATUS and RESET take none (spec/20_memory.md R47). -/
def Instr.arg : Instr → List Byte
  | .encode p => p
  | .feed c => c
  | .close => []
  | .status => []
  | .reset => []

/-- The command port can express the operation. -/
def Instr.wf (i : Instr) : Bool := decide (i.arg.length ≤ Config.maxArg)

end Sys2Proof
end

