-- ==== Sys2Proof/Decode.lean ====
section
/-! DEFINITION. The command decoder and encoder (spec/30_encoding.md R66 to R70, R74), and the bit-field and byte-order
primitives of spec/00_scope.md R12. The decoder is total: a byte sequence begins with a complete command, with a reserved
opcode, or with no complete command yet. -/

namespace Sys2Proof

/-! ### Byte order (R12, spec/20_memory.md R42, R45) -/

/-- `BE16(hi, lo) = hi * 256 + lo`. -/
def be16 (hi lo : Byte) : Nat := hi.toNat * 256 + lo.toNat

/-- `hi8(n) = n[15:8]`. -/
def hi8 (n : Nat) : Byte := BitVec.ofNat 8 (n / 256)

/-- `lo8(n) = n[7:0]`. -/
def lo8 (n : Nat) : Byte := BitVec.ofNat 8 n

/-- `BE32(b0, b1, b2, b3) = b0*2^24 + b1*2^16 + b2*2^8 + b3`; 16777216 is 2^24. -/
def be32 (b0 b1 b2 b3 : Byte) : Nat :=
  b0.toNat * 16777216 + b1.toNat * 65536 + b2.toNat * 256 + b3.toNat

/-- `BE32bytes(v)`, the four bytes of v most significant first (spec/30_encoding.md R73). A v of 2^32 or more, which no
command can express, keeps its low 32 bits (log entry 10). -/
def be32Bytes (v : Nat) : List Byte :=
  [BitVec.ofNat 8 (v / 16777216), BitVec.ofNat 8 (v / 65536), BitVec.ofNat 8 (v / 256), BitVec.ofNat 8 v]

/-- The eight bytes of a 64-bit word, bits [63:56] first (R73, the STATUS row). -/
def be64Bytes (w : Word64) : List Byte :=
  [w.extractLsb' 56 8, w.extractLsb' 48 8, w.extractLsb' 40 8, w.extractLsb' 32 8,
   w.extractLsb' 24 8, w.extractLsb' 16 8, w.extractLsb' 8 8, w.extractLsb' 0 8]

/-- The 64-bit word of eight bytes, most significant first: the host's reading of `be64Bytes`. -/
def be64 (b7 b6 b5 b4 b3 b2 b1 b0 : Byte) : Word64 :=
  b7 ++ b6 ++ b5 ++ b4 ++ b3 ++ b2 ++ b1 ++ b0

/-! ### The opcode map (R66, R68, R69) -/

/-- The two command formats (R66). -/
inductive Format where
  /-- One byte, the opcode. -/
  | op
  /-- The opcode, a 32-bit big-endian `LEN`, and `LEN` bytes of `DATA`. -/
  | oplv
  deriving DecidableEq, Repr

/-- The rows of the opcode map (R68). -/
inductive Operation where
  | encode | feed | close | status | reset
  deriving DecidableEq, Repr

/-- The opcode column of R68. -/
def Operation.opcode : Operation → Byte
  | .encode => 0x01
  | .feed => 0x02
  | .close => 0x03
  | .status => 0x04
  | .reset => 0x05

/-- The format column of R68. -/
def Operation.format : Operation → Format
  | .encode => .oplv
  | .feed => .oplv
  | .close => .op
  | .status => .op
  | .reset => .op

/-- The operation an opcode byte spells; `none` for the reserved opcodes 0x00 and 0x06..0xFF (R69). -/
def operationOf (opc : Byte) : Option Operation :=
  match opc.toNat with
  | 1 => some .encode
  | 2 => some .feed
  | 3 => some .close
  | 4 => some .status
  | 5 => some .reset
  | _ => none

/-- The operation of a row with its argument; a row of format OP takes none. -/
def Operation.command : Operation → List Byte → Instr
  | .encode, data => .encode data
  | .feed, data => .feed data
  | .close, _ => .close
  | .status, _ => .status
  | .reset, _ => .reset

/-- The row of the opcode map an operation belongs to. -/
def Instr.operation : Instr → Operation
  | .encode _ => .encode
  | .feed _ => .feed
  | .close => .close
  | .status => .status
  | .reset => .reset

/-! ### Decoding -/

/-- What a command stream begins with. -/
inductive Decoded where
  /-- A complete command, and the bytes after it. -/
  | instr (i : Instr) (rest : List Byte)
  /-- A reserved opcode, a command of one byte (R69), and the bytes after it. -/
  | reserved (opc : Byte) (rest : List Byte)
  /-- No complete command: the stream is empty or ends inside a command (R74). -/
  | incomplete
  deriving DecidableEq, Repr

/-- A 32-bit big-endian field and the bytes after it; `none` while bytes are missing (R67). -/
def readBe32 : List Byte → Option (Nat × List Byte)
  | b1 :: b2 :: b3 :: b4 :: rest => some (be32 b1 b2 b3 b4, rest)
  | _ => none

/-- The first `n` bytes and the bytes after them; `none` while bytes are missing. -/
def readBytes (n : Nat) (bs : List Byte) : Option (List Byte × List Byte) :=
  if bs.length < n then none else some (bs.take n, bs.drop n)

/-- `LEN` and `DATA` of an OPLV command: the argument, and the bytes after it; `none` while bytes are missing (R66, R67, R74). -/
def readArg (bs : List Byte) : Option (List Byte × List Byte) :=
  match readBe32 bs with
  | none => none
  | some (n, body) => readBytes n body

/-- The first command of a command stream (R66 to R70, R74). -/
def decode : List Byte → Decoded
  | [] => .incomplete
  | opc :: tail =>
    match operationOf opc with
    | none => .reserved opc tail
    | some o =>
      match o.format with
      | .op => .instr (o.command []) tail
      | .oplv =>
        match readArg tail with
        | none => .incomplete
        | some (data, rest) => .instr (o.command data) rest

/-- The stream begins with a command the block can take, a reserved one included. -/
def Decoded.complete : Decoded → Bool
  | .instr _ _ => true
  | .reserved _ _ => true
  | .incomplete => false

/-! ### Encoding -/

/-- The command bytes of an operation (R66, R67, R68; assembled text of R75). -/
def encode (i : Instr) : List Byte :=
  match i.operation.format with
  | .op => [i.operation.opcode]
  | .oplv => i.operation.opcode :: (be32Bytes i.arg.length ++ i.arg)

/-- The size of an operation's command in bytes (R74). -/
def commandSize (i : Instr) : Nat :=
  match i.operation.format with
  | .op => 1
  | .oplv => 5 + i.arg.length

/-! ### Words as the opcode table numbers them -/

/-- How many bytes the command at the front of `bs` has, bytes missing from its header read as 0 (R74). -/
def sizeFromHeader (bs : List Byte) : Nat :=
  match (operationOf (bs.getD 0 0)).map Operation.format with
  | some .oplv => 5 + be32 (bs.getD 1 0) (bs.getD 2 0) (bs.getD 3 0) (bs.getD 4 0)
  | _ => 1

/-- The bytes of a command whose low `nbits` bits are `w`, bit 0 the least significant bit of the first byte, every bit above
them 0 up to the command's own length. -/
def tableBytes (nbits w : Nat) : List Byte :=
  let given := (List.range ((nbits + 7) / 8)).map fun k => BitVec.ofNat 8 ((w % 2 ^ nbits) / 256 ^ k)
  given ++ List.replicate (sizeFromHeader given - given.length) 0

/-- The operation the decoder reads from those bytes. -/
def decodeTableWord (nbits w : Nat) : Option Instr :=
  match decode (tableBytes nbits w) with
  | .instr i _ => some i
  | .reserved _ _ => none
  | .incomplete => none

end Sys2Proof
end

