-- ==== Sys2Proof/Machine/State.lean ====
section
/-! DEFINITION. The state of the block as plain data (spec/10_state.md R20, R34; spec/30_encoding.md R66;
spec/70_reset_and_hazards.md R150), its reset value, and the reasons a step stops. -/

namespace Sys2Proof.Machine

/-- The architectural state of one decoder instance: the pair `(DB, CLOSED)` (R20). `PHASE`, `EXPECTED_LENGTH` and the STATUS
word are functions of it (R22, R23, R30). -/
structure Decoder where
  /-- The Decode Buffer, front byte first (R21). -/
  db : List Byte
  /-- The closed flag (R29). -/
  closed : Bool
  deriving DecidableEq, Repr

/-- One decoder instance with its command stream and its response stream (spec/30_encoding.md R66). -/
structure Channel where
  dec : Decoder
  /-- Command bytes the host has sent and the block has not taken, oldest first. -/
  cmd : List Byte
  /-- Response bytes the block has returned and the host has not collected, oldest first. -/
  resp : List Byte
  deriving DecidableEq, Repr

/-- An open decoder with an empty Decode Buffer, in AwaitingLength (R34). -/
def Decoder.initial : Decoder := { db := [], closed := false }

/-- A channel right after power-on reset: the decoder in its initial state and both streams empty (R34, R150). -/
def Channel.initial : Channel := { dec := Decoder.initial, cmd := [], resp := [] }

/-- The whole block. `port`, `order` and `tick` are the model's own fields (log entries 2 and 6). -/
structure State where
  /-- The instances' channels by stream number: numbers strictly rising, no entry equal to `Channel.initial`, which is what an
  unlisted number reads as (log entry 5). -/
  chans : List (Nat × Channel)
  /-- The stream whose operation is being, or was last, performed: the instance it addresses (R66). -/
  port : Nat
  /-- The streams whose commands come next, as far as the host has settled the order between streams (spec/20_memory.md R53). -/
  order : List Nat
  /-- Counts the commands taken; the free choice between streams is applied to it. -/
  tick : Nat
  deriving DecidableEq, Repr

/-- Power-on reset: every instance at its initial state, every stream empty (R34, spec/70_reset_and_hazards.md R150). The values
of `port`, `order` and `tick` are the model's choice (log entry 6). -/
def State.reset : State := { chans := [], port := 1, order := [], tick := 0 }

/-- Why a step has no next state. -/
inductive Fault where
  /-- Raised by the step when no stream holds a byte: the block waits for the host, and a run has ended (spec/10_state.md R28,
  spec/70_reset_and_hazards.md R162). Safe: the block does nothing until the host acts. -/
  | idle
  /-- Raised by the step when some stream ends inside a command and no stream holds a complete one: "it has no step (stuck)
  until the rest arrives" (spec/30_encoding.md R74). Safe. -/
  | stuck
  /-- Raised by an operation whose port is no stream of the block, outside 1..`N_DEC` (spec/60_exceptions.md R139). The step
  never performs such an operation. Safe. -/
  | noSuchInstance
  deriving DecidableEq, Repr

/-- Why an operation has no meaning in the model. -/
inductive Refusal where
  /-- The operation has no meaning in the model yet; raised only by an arm of exec, and no arm raises it. Safe. -/
  | notModelled (mnemonic : String)
  deriving DecidableEq, Repr

end Sys2Proof.Machine
end

