-- ==== Sys2Proof/Machine/Flags.lean ====
section
/-! DEFINITION. What is derived from the state of one decoder: the buffer reads, PHASE, EXPECTED_LENGTH and the STATUS word
(spec/10_state.md R22, R23, R29, R30), and the at-rest condition (R24). -/

namespace Sys2Proof.Machine

/-- `DBPeek(i)`, defined only for i < |DB| (spec/00_scope.md R13, spec/20_memory.md R41). -/
def dbPeek (db : List Byte) (i : Nat) : Option Byte := db[i]?

/-- The states of the frame-extraction machine (R22). -/
inductive Phase where
  | awaitingLength
  | awaitingPayload
  deriving DecidableEq, Repr

/-- The one-bit code of PHASE (R22). -/
def Phase.bit : Phase → Bool
  | .awaitingLength => false
  | .awaitingPayload => true

/-- `PHASE`, a function of the Decode Buffer (R22). -/
def phase (db : List Byte) : Phase :=
  if db.length < Config.lenFieldBytes then .awaitingLength else .awaitingPayload

/-- `EXPECTED_LENGTH`, the big-endian value of the length field at the front of the buffer; `none` while it is undefined, in
AwaitingLength (R23, spec/30_encoding.md R65). -/
def expectedLength (db : List Byte) : Option Nat :=
  match dbPeek db 0, dbPeek db 1 with
  | some h, some l => some (be16 h l)
  | _, _ => none

/-- The buffer holds no complete frame (R24). -/
abbrev Rest (db : List Byte) : Prop :=
  db.length < 2 ∨ db.length - 2 < (expectedLength db).getD 0

/-- The STATUS word (R30): reserved zeros [63:35], `CLOSED` [34], `PHASE` [33], `COUNT` [32:16], `EXP_LEN` [15:0], the last 0 in
AwaitingLength. -/
def statusWord (d : Decoder) : Word64 :=
  0#29 ++ BitVec.ofBool d.closed ++ BitVec.ofBool (phase d.db).bit ++ BitVec.ofNat 17 d.db.length
    ++ BitVec.ofNat 16 ((expectedLength d.db).getD 0)

/-- `EXP_LEN` of a STATUS word (R30). -/
def statusExpLen (w : Word64) : BitVec 16 := w.extractLsb' 0 16

/-- `COUNT` of a STATUS word (R30). -/
def statusCount (w : Word64) : BitVec 17 := w.extractLsb' 16 17

/-- `PHASE` of a STATUS word (R30). -/
def statusPhase (w : Word64) : Bool := w.getLsbD 33

/-- `CLOSED` of a STATUS word (R30). -/
def statusClosed (w : Word64) : Bool := w.getLsbD 34

end Sys2Proof.Machine
end

