-- ==== Sys2Proof/Machine/Response.lean ====
section
/-! DEFINITION. The responses of the block: errors (spec/60_exceptions.md R130, R131), status codes (spec/30_encoding.md R72), the
byte layout of every response (R73), and the host's splitting of a response stream (R71). -/

namespace Sys2Proof.Machine

/-- The four errors with the info each records (spec/60_exceptions.md R131). -/
inductive CodecError where
  /-- ENCODE of a payload over the maximum: the offending length and the maximum. -/
  | payloadTooLarge (length max : Nat)
  /-- A teardown that drops buffered bytes: how many, and the phase they were in. -/
  | incompleteInput (count : Nat) (ph : Phase)
  /-- A reserved opcode. -/
  | illegalCommand (opc : Byte)
  /-- FEED or CLOSE on a torn-down decoder: the opcode. -/
  | decoderClosed (opc : Byte)
  deriving DecidableEq, Repr

/-- What an operation answers. -/
inductive Response where
  /-- ENCODE, OK: the wire frame. -/
  | frame (bytes : List Byte)
  /-- FEED, OK: the payloads emitted, in stream order. -/
  | payloads (ps : List (List Byte))
  /-- CLOSE or RESET, OK. -/
  | done
  /-- STATUS, OK: the STATUS word. -/
  | status (w : Word64)
  /-- Any operation that raises an error. -/
  | error (e : CodecError)
  deriving DecidableEq, Repr

/-- The status code of an error (R72). -/
def CodecError.code : CodecError → Byte
  | .payloadTooLarge _ _ => 0x01
  | .incompleteInput _ _ => 0x02
  | .illegalCommand _ => 0x80
  | .decoderClosed _ => 0x81

/-- The status code of a response (R72). -/
def Response.code : Response → Byte
  | .frame _ => 0x00
  | .payloads _ => 0x00
  | .done => 0x00
  | .status _ => 0x00
  | .error e => e.code

/-- `rec(p)`, a payload record of a FEED response (R73). -/
def payloadRecord (p : List Byte) : List Byte := hi8 p.length :: lo8 p.length :: p

/-- The fields an error records, as its response lays them out (R73). -/
def CodecError.fields : CodecError → List Byte
  | .payloadTooLarge n m => be32Bytes n ++ [hi8 m, lo8 m]
  | .incompleteInput c ph => be32Bytes c ++ [(BitVec.ofBool ph.bit).setWidth 8]
  | .illegalCommand opc => [opc]
  | .decoderClosed opc => [opc]

/-- The fields after the status code (R73). -/
def Response.fields : Response → List Byte
  | .frame f => be32Bytes f.length ++ f
  | .payloads ps => be32Bytes ps.length ++ ps.flatMap payloadRecord
  | .done => []
  | .status w => be64Bytes w
  | .error e => e.fields

/-- The bytes of a response: the status code, then the fields (R71, R73). -/
def Response.bytes (r : Response) : List Byte := r.code :: r.fields

/-! ### Splitting a response stream (R71) -/

/-- A 16-bit big-endian field and the bytes after it. -/
def readBe16 : List Byte → Option (Nat × List Byte)
  | h :: l :: rest => some (be16 h l, rest)
  | _ => none

/-- A 64-bit word and the bytes after it. -/
def readBe64 : List Byte → Option (Word64 × List Byte)
  | b7 :: b6 :: b5 :: b4 :: b3 :: b2 :: b1 :: b0 :: rest => some (be64 b7 b6 b5 b4 b3 b2 b1 b0, rest)
  | _ => none

/-- `k` payload records and the bytes after them. -/
def readRecords : Nat → List Byte → Option (List (List Byte) × List Byte)
  | 0, bs => some ([], bs)
  | k + 1, bs =>
    match readBe16 bs with
    | none => none
    | some (n, body) =>
      match readBytes n body with
      | none => none
      | some (p, more) =>
        match readRecords k more with
        | none => none
        | some (ps, rest) => some (p :: ps, rest)

/-- The fields of an OK response to an operation. -/
def readOk (o : Operation) (bs : List Byte) : Option (Response × List Byte) :=
  match o with
  | .encode => (readArg bs).map fun r => (.frame r.1, r.2)
  | .feed =>
    match readBe32 bs with
    | none => none
    | some (k, body) => (readRecords k body).map fun r => (.payloads r.1, r.2)
  | .close => some (.done, bs)
  | .status => (readBe64 bs).map fun r => (.status r.1, r.2)
  | .reset => some (.done, bs)

/-- The length and the maximum of a `PayloadTooLarge` response. -/
def readTooLarge (bs : List Byte) : Option (CodecError × List Byte) :=
  match readBe32 bs with
  | none => none
  | some (n, body) => (readBe16 body).map fun r => (.payloadTooLarge n r.1, r.2)

/-- The phase a byte of an `IncompleteInput` response shows. -/
def readPhase (b : Byte) : Option Phase :=
  match b.toNat with
  | 0 => some .awaitingLength
  | 1 => some .awaitingPayload
  | _ => none

/-- The count and the phase of an `IncompleteInput` response. -/
def readIncomplete (bs : List Byte) : Option (CodecError × List Byte) :=
  match readBe32 bs with
  | some (c, ph :: rest) => (readPhase ph).map fun p => (.incompleteInput c p, rest)
  | _ => none

/-- The opcode of an `IllegalCommand` response. -/
def readIllegal : List Byte → Option (CodecError × List Byte)
  | opc :: rest => some (.illegalCommand opc, rest)
  | [] => none

/-- The opcode of a `DecoderClosed` response. -/
def readClosed : List Byte → Option (CodecError × List Byte)
  | opc :: rest => some (.decoderClosed opc, rest)
  | [] => none

/-- An error response, of what follows its status code. -/
def asError (r : Option (CodecError × List Byte)) : Option (Response × List Byte) := r.map fun e => (.error e.1, e.2)

/-- The host's reading of the response at the front of a response stream, from the opcode of the command it answers, its status
code and its own length fields alone (R71, R72, R73). -/
def readResponse (opc : Byte) : List Byte → Option (Response × List Byte)
  | [] => none
  | code :: bs =>
    if code = 0x00 then (operationOf opc).bind fun o => readOk o bs
    else if code = 0x01 then asError (readTooLarge bs)
    else if code = 0x02 then asError (readIncomplete bs)
    else if code = 0x80 then asError (readIllegal bs)
    else if code = 0x81 then asError (readClosed bs)
    else none

end Sys2Proof.Machine
end

