-- ==== Sys2Proof/Machine/Ops.lean ====
section
/-! DEFINITION. The shared operations: the table of channels, the Decode Buffer primitives (spec/00_scope.md R13,
spec/20_memory.md R41), ending an operation with a response or an error (spec/60_exceptions.md R135), and performing an
operation at the addressed instance (spec/30_encoding.md R66, spec/10_state.md R33). There is no return from an error: after any
response the unit takes the next command of its stream (spec/60_exceptions.md R136). -/

namespace Sys2Proof.Machine

/-! ### The table of channels -/

/-- The block has a stream of that number: 1 .. `N_DEC` (spec/60_exceptions.md R139). Stream 1 always exists, `N_DEC` being at
least 1; it is named first so that it is seen to exist whatever `N_DEC` is. -/
def hasStream (d : Nat) : Bool := d == 1 || (decide (1 ≤ d) && decide (d ≤ Config.nDec))

/-- The channel of a number; a number not listed is at its reset value. -/
def lookupChan : List (Nat × Channel) → Nat → Channel
  | [], _ => Channel.initial
  | (k, c) :: t, d => if k = d then c else lookupChan t d

/-- The table without the channel of a number. -/
def dropChan (l : List (Nat × Channel)) (d : Nat) : List (Nat × Channel) := l.filter fun e => decide (e.1 ≠ d)

/-- The table with a channel put in before the first greater number. -/
def insertChan : List (Nat × Channel) → Nat → Channel → List (Nat × Channel)
  | [], d, c => [(d, c)]
  | (k, x) :: t, d, c => if d < k then (d, c) :: (k, x) :: t else (k, x) :: insertChan t d c

/-- Writes the channel of a number and keeps the canonical form: a channel at its reset value is not listed. -/
def storeChan (l : List (Nat × Channel)) (d : Nat) (c : Channel) : List (Nat × Channel) :=
  if c = Channel.initial then dropChan l d else insertChan (dropChan l d) d c

/-- The canonical form: numbers strictly rising, no channel at its reset value listed. -/
def chansWf : List (Nat × Channel) → Bool
  | [] => true
  | (k, c) :: t => decide (c ≠ Channel.initial) && t.all (fun e => decide (k < e.1)) && chansWf t

/-- The channel of stream `d`. -/
def State.chan (s : State) (d : Nat) : Channel := lookupChan s.chans d

/-- The state with the channel of stream `d` replaced. -/
def State.setChan (s : State) (d : Nat) (c : Channel) : State := { s with chans := storeChan s.chans d c }

/-! ### The Decode Buffer -/

/-- `DBAppend(s)`: the chunk at the back. -/
def dbAppend (db chunk : List Byte) : List Byte := db ++ chunk

/-- `DBDrop(n)`: the first n bytes removed, defined only for n ≤ |DB|. -/
def dbDrop (db : List Byte) (n : Nat) : List Byte := db.drop n

/-! ### Ending an operation -/

/-- `respond(code, fields)`: the operation ends, leaving the decoder as it then is (spec/00_scope.md R13). -/
def respond (d : Decoder) (r : Response) : Decoder × Response := (d, r)

/-- `raise E(info)`: the operation ends with an error response. Nothing is saved, no mode changes, control goes nowhere; the
decoder is as the writes stated before the raise left it (spec/00_scope.md R13, spec/60_exceptions.md R135). -/
def raise (d : Decoder) (e : CodecError) : Decoder × Response := (d, .error e)

/-- The state after an operation that leaves the addressed decoder as `d` and responds `r`: the response goes to the back of that
instance's response stream, and nothing else is touched (spec/10_state.md R33, spec/30_encoding.md R66). -/
def State.answer (s : State) (d : Decoder) (r : Response) : State :=
  s.setChan s.port { s.chan s.port with dec := d, resp := (s.chan s.port).resp ++ r.bytes }

/-- Performs an operation at the instance `port` addresses, as one step (spec/20_memory.md R48, spec/30_encoding.md R66). -/
def perform (s : State) (op : Decoder → Decoder × Response) : Host.Outcome State Fault Refusal :=
  if hasStream s.port then .next (s.answer (op (s.chan s.port).dec).1 (op (s.chan s.port).dec).2)
  else .fault .noSuchInstance

/-- A reserved opcode: `IllegalCommand` with the opcode, no state change (spec/30_encoding.md R69, spec/60_exceptions.md R131). -/
def illegalCommand (opc : Byte) (s : State) : Host.Outcome State Fault Refusal :=
  perform s fun d => raise d (.illegalCommand opc)

end Sys2Proof.Machine
end

