-- ==== Sys2Proof/Machine/Control.lean ====
section
/-! DEFINITION. The control operations STATUS and RESET (spec/42_control.md). -/

namespace Sys2Proof.Machine

/-- The pseudocode of `STATUS` (R120): no state is written. -/
def statusOp (d : Decoder) : Decoder × Response := respond d (.status (statusWord d))

/-- `STATUS` (R120). -/
def execStatus (s : State) : Host.Outcome State Fault Refusal := perform s statusOp

/-- The pseudocode of `RESET` (R121): the reset has happened when the error is raised. -/
def resetOp (d : Decoder) : Decoder × Response :=
  if d.closed = false ∧ d.db.length > 0 then
    raise Decoder.initial (.incompleteInput d.db.length (phase d.db))
  else respond Decoder.initial .done

/-- `RESET` (R121). -/
def execReset (s : State) : Host.Outcome State Fault Refusal := perform s resetOp

end Sys2Proof.Machine
end

