-- ==== Sys2Proof/Machine/Operands.lean ====
section
/-! DEFINITION. The wire frame, the one operand format of the codec itself (spec/30_encoding.md R60 to R65, R77), as the encoder
writes it and as the decoder reads it at the front of a Decode Buffer. -/

namespace Sys2Proof.Machine

/-- The wire frame of a payload: its length big-endian, then the payload, nothing else (R60, R61). -/
def wireFrame (p : List Byte) : List Byte := hi8 p.length :: lo8 p.length :: p

/-- A wire stream: the plain concatenation of the frames of its payloads (R77). -/
def wireStream (ps : List (List Byte)) : List Byte := ps.flatMap wireFrame

/-- `DB(2 .. 2 + L)`, the payload of a frame at the front of the buffer (R65). -/
def frontPayload (db : List Byte) (len : Nat) : List Byte := (db.drop Config.lenFieldBytes).take len

end Sys2Proof.Machine
end

