-- ==== Sys2Proof/Machine/Encoder.lean ====
section
/-! DEFINITION. The Encoder operation (spec/40_encoder.md). -/

namespace Sys2Proof.Machine

/-- The Encoder, a pure function of the payload: the size check precedes any output (R85, R86, R87). -/
def encodePayload (p : List Byte) : Response :=
  if p.length > Config.maxPayload then .error (.payloadTooLarge p.length Config.maxPayload)
  else .frame (wireFrame p)

/-- `ENCODE p` (R85): the Encoder's result on the stream it was issued on; no decoder state is read or written. -/
def execEncode (p : List Byte) (s : State) : Host.Outcome State Fault Refusal :=
  perform s fun d => respond d (encodePayload p)

end Sys2Proof.Machine
end

