-- ==== Sys2Proof/Machine/Framer.lean ====
section
/-! DEFINITION. The Decoder (framer) operations FEED and CLOSE (spec/41_decoder.md). -/

namespace Sys2Proof.Machine

/-- The loop of `EXTRACT` (R96), at most `fuel` times round: the payloads emitted and the buffer left. -/
def extractLoop : Nat → List Byte → List (List Byte) × List Byte
  | 0, db => ([], db)
  | fuel + 1, db =>
    match expectedLength db with
    | none => ([], db)
    | some len =>
      if db.length - 2 < len then ([], db)
      else
        let r := extractLoop fuel (dbDrop db (2 + len))
        (frontPayload db len :: r.1, r.2)

/-- `EXTRACT` (R96). Every round that does not exit removes at least 2 bytes, so |DB| rounds are enough. -/
def extract (db : List Byte) : List (List Byte) × List Byte := extractLoop db.length db

/-- The pseudocode of `FEED c` (R95). -/
def feedOp (c : List Byte) (d : Decoder) : Decoder × Response :=
  if d.closed then raise d (.decoderClosed 0x02)
  else
    let r := extract (dbAppend d.db c)
    respond { d with db := r.2 } (.payloads r.1)

/-- `FEED c` (R95). -/
def execFeed (c : List Byte) (s : State) : Host.Outcome State Fault Refusal := perform s (feedOp c)

/-- The pseudocode of `CLOSE` (R103): the two writes stand when the error is raised. -/
def closeOp (d : Decoder) : Decoder × Response :=
  if d.closed then raise d (.decoderClosed 0x03)
  else
    let d' : Decoder := { db := [], closed := true }
    if d.db.length > 0 then raise d' (.incompleteInput d.db.length (phase d.db)) else respond d' .done

/-- `CLOSE` (R103). -/
def execClose (s : State) : Host.Outcome State Fault Refusal := perform s closeOp

end Sys2Proof.Machine
end

