-- ==== Sys2Proof/Machine/Dispatch.lean ====
section
/-! DEFINITION. One arm per operation of the opcode map (spec/30_encoding.md R68). -/

namespace Sys2Proof.Machine

def exec (i : Instr) (s : State) : Host.Outcome State Fault Refusal :=
  match i with
  | .encode p => Sys2Proof.Machine.execEncode p s
  | .feed c => Sys2Proof.Machine.execFeed c s
  | .close => Sys2Proof.Machine.execClose s
  | .status => Sys2Proof.Machine.execStatus s
  | .reset => Sys2Proof.Machine.execReset s

end Sys2Proof.Machine
end

