-- ==== Sys2Proof/Machine/HostPort.lean ====
section
/-! DEFINITION. The host's side of the block (spec/00_scope.md R7, spec/30_encoding.md R66, spec/70_reset_and_hazards.md R150, R161):
what the host may do between steps. None of it is part of a step. -/

namespace Sys2Proof.Machine

/-- What the host may do to the block. -/
inductive HostEvent where
  /-- Send bytes on the command stream of an instance; they may end inside a command (R74). -/
  | send (d : Nat) (bytes : List Byte)
  /-- Collect what stands on the response stream of an instance (R161). -/
  | collect (d : Nat)
  /-- Settle which streams' commands come next (spec/20_memory.md R53). -/
  | settle (order : List Nat)
  /-- Power-on reset: no response, no report, streams emptied, a partly received command lost (R150). -/
  | powerOn
  deriving DecidableEq, Repr

/-- The state after a host event. An event on a stream the block does not have changes nothing. -/
def applyHost : HostEvent → State → State
  | .send d bytes, s =>
    if hasStream d then s.setChan d { s.chan d with cmd := (s.chan d).cmd ++ bytes } else s
  | .collect d, s => if hasStream d then s.setChan d { s.chan d with resp := [] } else s
  | .settle ds, s => { s with order := ds }
  | .powerOn, _ => State.reset

end Sys2Proof.Machine
end

