-- ==== Sys2Proof/Machine/Fetch.lean ====
section
/-! DEFINITION. Taking a command: which stream moves next, and performing the command at its front (spec/20_memory.md R52, R53;
spec/30_encoding.md R66, R69, R74; spec/60_exceptions.md R136, R137). -/

namespace Sys2Proof.Machine

/-- The stream exists and a complete command stands at its front (R74). -/
def State.ready (s : State) (d : Nat) : Bool := hasStream d && (decode (s.chan d).cmd).complete

/-- The streams that hold a complete command. A stream not listed has an empty command stream. -/
def State.readyStreams (s : State) : List Nat := (s.chans.map Prod.fst).filter s.ready

/-- One of the ready streams: the only one, or the one the free value names (log entry 2). -/
def State.freePick (s : State) : Option Nat :=
  match s.readyStreams with
  | [] => none
  | [d] => some d
  | d :: e :: t => (d :: e :: t)[Config.freeChoice s.tick % (t.length + 2)]?

/-- The stream whose command comes next: the one the host has settled if it is ready, else any ready one. -/
def State.pick (s : State) : Option Nat :=
  match s.order with
  | [] => s.freePick
  | d :: _ => if s.ready d then some d else s.freePick

/-- No command can be taken: nothing is pending, or a command is not complete (R74, R142, R162). -/
def State.waitReason (s : State) : Fault :=
  if s.chans.all (fun e => (s.chan e.1).cmd.isEmpty) then .idle else .stuck

/-- A command of stream `d` is taken: its bytes leave the command stream, and `d` is the instance addressed (R66). -/
def State.take (s : State) (d : Nat) (rest : List Byte) : State :=
  { s.setChan d { s.chan d with cmd := rest } with port := d, order := s.order.drop 1, tick := s.tick + 1 }

/-- Performs the command at the front of stream `d`; the opcode is decoded first (R137). -/
def serve (d : Nat) (s : State) : Host.Outcome State Fault Refusal :=
  match decode (s.chan d).cmd with
  | .instr i rest => exec i (s.take d rest)
  | .reserved opc rest => illegalCommand opc (s.take d rest)
  | .incomplete => .fault .stuck

/-- Performs commands of the streams listed, one each, in that order. -/
def serveAll : List Nat → State → Host.Outcome State Fault Refusal
  | [], s => .next s
  | d :: ds, s =>
    match serve d s with
    | .next s' => serveAll ds s'
    | .fault r => .fault r
    | .refused r => .refused r

/-- The bytes stand at the front of the command stream of stream 1, and its command is settled to be the next (log entry 12). -/
def State.placeCommand (s : State) (bytes : List Byte) : State :=
  { s.setChan 1 { s.chan 1 with cmd := bytes ++ (s.chan 1).cmd } with order := 1 :: s.order }

end Sys2Proof.Machine
end

