-- ==== Sys2Proof/Machine/Step.lean ====
section
/-! DEFINITION. One step of the block: one operation of one unit (spec/00_scope.md R7, spec/20_memory.md R48). -/

namespace Sys2Proof.Machine

/-- The next command of some stream is performed; with no complete command there is no step (spec/30_encoding.md R74). -/
def step (s : State) : Host.Outcome State Fault Refusal :=
  match s.pick with
  | none => .fault s.waitReason
  | some d => serve d s

/-- The command of a table word stands at the front of the command stream of stream 1 and is the next to be taken. -/
def State.withFetchWord (s : State) (nbits w : Nat) : State := s.placeCommand (tableBytes nbits w)

end Sys2Proof.Machine
end

