-- ==== Sys2Proof/Machine/Assembler.lean ====
section
/-! DEFINITION. The assembler of spec/30_encoding.md part 3: byte expressions and operation lines (R75), the pseudo-instructions and
their expansions (R76), and the text they are written as. It makes command bytes for the host to send; the step does not use it.
The choices R75 leaves open are in log entry 13. -/

namespace Sys2Proof.Machine

/-! ### Lines and their expansion -/

/-- `<bytes>` (R75). -/
inductive ByteExpr where
  /-- `[h, h, ...]`. -/
  | list (bs : List Byte)
  /-- A string literal of printable ASCII characters. -/
  | text (cs : List Char)
  /-- `rep(n, 0xNN)`. -/
  | rep (n : Nat) (b : Byte)
  /-- `x ++ y`. -/
  | cat (x y : ByteExpr)
  deriving DecidableEq, Repr

/-- A printable ASCII character. -/
def printable (c : Char) : Bool := decide (0x20 ≤ c.toNat) && decide (c.toNat ≤ 0x7E)

/-- The bytes an expression stands for; `none` for a string with a character that is not printable ASCII (R75, spec/00_scope.md
R11). -/
def ByteExpr.value : ByteExpr → Option (List Byte)
  | .list bs => some bs
  | .text cs => if cs.all printable then some (cs.map fun c => BitVec.ofNat 8 c.toNat) else none
  | .rep n b => some (List.replicate n b)
  | .cat x y =>
    match x.value, y.value with
    | some a, some b => some (a ++ b)
    | _, _ => none

/-- One line of assembler text: an operation (R75) or a pseudo-instruction (R76). -/
inductive AsmLine where
  | encode (e : ByteExpr)
  | feed (e : ByteExpr)
  | close
  | status
  | reset
  /-- `FEEDB 0xNN`. -/
  | feedByte (b : Byte)
  /-- `FEEDSPLIT s, k`. -/
  | feedSplit (e : ByteExpr) (k : Nat)
  /-- `LOOPBACK p`. -/
  | loopback (e : ByteExpr)
  deriving DecidableEq, Repr

/-- The chunks `s(i*k .. min((i+1)*k, |s|))` for i = 0 .. ⌈|s| / k⌉ − 1; the one empty chunk for the empty s (R76). -/
def splitChunks (s : List Byte) (k : Nat) : List (List Byte) :=
  if s = [] then [[]] else (List.range ((s.length + k - 1) / k)).map fun i => (s.drop (i * k)).take k

/-- The operations a line stands for; `none` where the assembler refuses it (R75, R76), or where the command port cannot express
an argument. -/
def AsmLine.expand (a : AsmLine) : Option (List Instr) :=
  let is : Option (List Instr) :=
    match a with
    | .encode e => e.value.map fun p => [.encode p]
    | .feed e => e.value.map fun c => [.feed c]
    | .close => some [.close]
    | .status => some [.status]
    | .reset => some [.reset]
    | .feedByte b => some [.feed [b]]
    | .feedSplit e k => if k = 0 then none else e.value.map fun s => (splitChunks s k).map .feed
    | .loopback e =>
      match e.value with
      | none => none
      | some p => if p.length > Config.maxPayload then none else some [.encode p, .feed (wireFrame p)]
  match is with
  | none => none
  | some l => if l.all Instr.wf then some l else none

/-! ### Text -/

/-- The words of a line. -/
inductive Token where
  | name (cs : List Char)
  /-- A decimal number. -/
  | dec (n : Nat)
  /-- `0x` and its digits. -/
  | hex (ds : List Nat)
  | str (cs : List Char)
  | lbracket | rbracket | lparen | rparen | comma | plusPlus
  deriving DecidableEq, Repr

/-- The value of a hexadecimal digit. -/
def hexDigit (c : Char) : Option Nat :=
  if decide (0x30 ≤ c.toNat) && decide (c.toNat ≤ 0x39) then some (c.toNat - 0x30)
  else if decide (0x41 ≤ c.toNat) && decide (c.toNat ≤ 0x46) then some (c.toNat - 0x41 + 10)
  else if decide (0x61 ≤ c.toNat) && decide (c.toNat ≤ 0x66) then some (c.toNat - 0x61 + 10)
  else none

/-- A decimal digit. -/
def isDec (c : Char) : Bool := decide (0x30 ≤ c.toNat) && decide (c.toNat ≤ 0x39)

/-- A letter of a mnemonic or of `rep`. -/
def isLetter (c : Char) : Bool :=
  (decide (0x41 ≤ c.toNat) && decide (c.toNat ≤ 0x5A)) || (decide (0x61 ≤ c.toNat) && decide (c.toNat ≤ 0x7A))

/-- The value of digits in a base, most significant first (spec/00_scope.md R9). -/
def digitsValue (base : Nat) (ds : List Nat) : Nat := ds.foldl (fun n d => n * base + d) 0

/-- The words of a line of at most `fuel` characters; a comment runs from `;` outside a string to the end (R75). -/
def lexLine : Nat → List Char → Option (List Token)
  | _, [] => some []
  | 0, _ => none
  | fuel + 1, c :: cs =>
    if c = ' ' ∨ c = '\t' then lexLine fuel cs
    else if c = ';' then some []
    else if c = '[' then (lexLine fuel cs).map (.lbracket :: ·)
    else if c = ']' then (lexLine fuel cs).map (.rbracket :: ·)
    else if c = '(' then (lexLine fuel cs).map (.lparen :: ·)
    else if c = ')' then (lexLine fuel cs).map (.rparen :: ·)
    else if c = ',' then (lexLine fuel cs).map (.comma :: ·)
    else if c = '+' then
      match cs with
      | '+' :: t => (lexLine fuel t).map (.plusPlus :: ·)
      | _ => none
    else if c = '"' then
      match cs.dropWhile (fun x => decide (x ≠ '"')) with
      | _ :: t => (lexLine fuel t).map (.str (cs.takeWhile (fun x => decide (x ≠ '"'))) :: ·)
      | [] => none
    else if c = '0' ∧ cs.head? = some 'x' then
      let body := cs.drop 1
      (lexLine fuel (body.dropWhile fun x => (hexDigit x).isSome)).map
        (.hex ((body.takeWhile fun x => (hexDigit x).isSome).filterMap hexDigit) :: ·)
    else if isDec c then
      (lexLine fuel (cs.dropWhile isDec)).map
        (.dec (digitsValue 10 ((c :: cs.takeWhile isDec).filterMap hexDigit)) :: ·)
    else if isLetter c then (lexLine fuel (cs.dropWhile isLetter)).map (.name (c :: cs.takeWhile isLetter) :: ·)
    else none

/-- A hexadecimal byte `0xNN`: two digits (R75). -/
def tokenByte : Token → Option Byte
  | .hex [a, b] => some (BitVec.ofNat 8 (a * 16 + b))
  | _ => none

/-- A number, decimal or hexadecimal (spec/00_scope.md R9). -/
def tokenNat : Token → Option Nat
  | .dec n => some n
  | .hex (d :: ds) => some (digitsValue 16 (d :: ds))
  | _ => none

/-- The bytes of a list after its opening bracket, at least one, up to its closing bracket. -/
def parseList : List Token → Option (List Byte × List Token)
  | t :: .rbracket :: rest => (tokenByte t).map fun b => ([b], rest)
  | t :: .comma :: rest =>
    match tokenByte t, parseList rest with
    | some b, some (bs, r) => some (b :: bs, r)
    | _, _ => none
  | _ => none

/-- A list, a string or a `rep`. -/
def parseAtom : List Token → Option (ByteExpr × List Token)
  | .lbracket :: .rbracket :: rest => some (.list [], rest)
  | .lbracket :: rest => (parseList rest).map fun r => (.list r.1, r.2)
  | .str cs :: rest => some (.text cs, rest)
  | .name ['r', 'e', 'p'] :: .lparen :: n :: .comma :: b :: .rparen :: rest =>
    match tokenNat n, tokenByte b with
    | some k, some v => some (.rep k v, rest)
    | _, _ => none
  | _ => none

/-- `<bytes>`: atoms joined by `++`, at most `fuel` of them (R75). -/
def parseExpr : Nat → List Token → Option (ByteExpr × List Token)
  | 0, _ => none
  | fuel + 1, ts =>
    match parseAtom ts with
    | some (x, .plusPlus :: rest) => (parseExpr fuel rest).map fun r => (.cat x r.1, r.2)
    | other => other

/-- An expression that is the whole rest of a line. -/
def wholeExpr (ts : List Token) : Option ByteExpr :=
  match parseExpr ts.length ts with
  | some (e, []) => some e
  | _ => none

/-- One line: nothing for a blank line, else one operation or pseudo-instruction (R75, R76). -/
def parseLine (cs : List Char) : Option (List AsmLine) :=
  match lexLine cs.length cs with
  | none => none
  | some [] => some []
  | some (.name ['E', 'N', 'C', 'O', 'D', 'E'] :: ts) => (wholeExpr ts).map fun e => [.encode e]
  | some (.name ['F', 'E', 'E', 'D'] :: ts) => (wholeExpr ts).map fun e => [.feed e]
  | some [.name ['C', 'L', 'O', 'S', 'E']] => some [.close]
  | some [.name ['S', 'T', 'A', 'T', 'U', 'S']] => some [.status]
  | some [.name ['R', 'E', 'S', 'E', 'T']] => some [.reset]
  | some [.name ['F', 'E', 'E', 'D', 'B'], t] => (tokenByte t).map fun b => [.feedByte b]
  | some (.name ['F', 'E', 'E', 'D', 'S', 'P', 'L', 'I', 'T'] :: ts) =>
    match parseExpr ts.length ts with
    | some (e, [.comma, t]) => (tokenNat t).map fun k => [.feedSplit e k]
    | _ => none
  | some (.name ['L', 'O', 'O', 'P', 'B', 'A', 'C', 'K'] :: ts) => (wholeExpr ts).map fun e => [.loopback e]
  | some _ => none

/-- The operations of a program, a list of lines; `none` if a line is refused. -/
def assemble : List AsmLine → Option (List Instr)
  | [] => some []
  | a :: rest =>
    match a.expand, assemble rest with
    | some is, some js => some (is ++ js)
    | _, _ => none

/-- The lines of a program's text. -/
def parseLines : List (List Char) → Option (List AsmLine)
  | [] => some []
  | l :: rest =>
    match parseLine l, parseLines rest with
    | some a, some b => some (a ++ b)
    | _, _ => none

/-- The command stream of a program, given line by line (R75: the text of an operation assembles to its command bytes). -/
def assembleText (lines : List (List Char)) : Option (List Byte) :=
  match parseLines lines with
  | none => none
  | some as =>
    match assemble as with
    | none => none
    | some is => some (is.flatMap encode)

end Sys2Proof.Machine
end

