-- ==== Sys2Proof/Machine/Serial.lean ====
section
/-! DEFINITION. Two realizations of FEED that the spec allows beside its normative pseudocode, as functions of their own so that
their equality with it can be claimed: the byte-serial one (spec/41_decoder.md R105), and one that consumes the length field and
caches it in registers (spec/10_state.md R23, R31; spec/90_conflicts.md C5; spec/93_implementation_defined.md U1). Neither is used
by the step. -/

namespace Sys2Proof.Machine

/-- FEED byte by byte: EXTRACT after each byte (R105). The payloads emitted and the buffer left. -/
def serialFeed : List Byte → List Byte → List (List Byte) × List Byte
  | db, [] => ([], db)
  | db, b :: bs =>
    let r := extract (dbAppend db [b])
    let q := serialFeed r.2 bs
    (r.1 ++ q.1, q.2)

/-- The buffer's occupancy right after each byte is taken, before EXTRACT (R105). -/
def serialOccupancy : List Byte → List Byte → List Nat
  | _, [] => []
  | db, b :: bs => (dbAppend db [b]).length :: serialOccupancy (extract (dbAppend db [b])).2 bs

/-- The registers of a decoder that consumes the length field and caches it (R31). -/
inductive CachedRegs where
  /-- Between frames: nothing held. -/
  | start
  /-- The first length byte is held. -/
  | firstByte (h : Byte)
  /-- The length is cached and that many payload bytes are awaited; those received so far are held. -/
  | payload (h l : Byte) (got : List Byte)
  deriving DecidableEq, Repr

/-- The Decode Buffer the registers stand for (R31: each cached register equals what the buffer gives). -/
def CachedRegs.db : CachedRegs → List Byte
  | .start => []
  | .firstByte h => [h]
  | .payload h l got => h :: l :: got

/-- The `PHASE` register of that decoder (R31). -/
def CachedRegs.phase : CachedRegs → Phase
  | .start => .awaitingLength
  | .firstByte _ => .awaitingLength
  | .payload _ _ _ => .awaitingPayload

/-- The cached `EXPECTED_LENGTH` of that decoder (R31). -/
def CachedRegs.expected : CachedRegs → Option Nat
  | .start => none
  | .firstByte _ => none
  | .payload h l _ => some (be16 h l)

/-- One byte taken: the payload it completes, if any, and the registers after it. A frame of length 0 completes with its second
byte (spec/41_decoder.md R102). -/
def CachedRegs.take (b : Byte) : CachedRegs → Option (List Byte) × CachedRegs
  | .start => (none, .firstByte b)
  | .firstByte h => if be16 h b = 0 then (some [], .start) else (none, .payload h b [])
  | .payload h l got =>
    if got.length + 1 = be16 h l then (some (got ++ [b]), .start) else (none, .payload h l (got ++ [b]))

/-- A chunk taken byte by byte. -/
def CachedRegs.feed : List Byte → CachedRegs → List (List Byte) × CachedRegs
  | [], r => ([], r)
  | b :: bs, r =>
    let t := r.take b
    let q := CachedRegs.feed bs t.2
    (t.1.toList ++ q.1, q.2)

end Sys2Proof.Machine
end

