-- ==== Sys2Proof/Safety.lean ====
section
/-! DEFINITION. What holds of the block between steps: the at-rest invariant (spec/10_state.md R24), what `CLOSED` implies (R30), and
the canonical form of the model's channel table; and the states the block and its host can reach. -/

namespace Sys2Proof.Machine

/-- A decoder at rest: no complete frame is buffered (R24), and a closed decoder's buffer is empty (R30, R103). -/
def Decoder.AtRest (d : Decoder) : Prop := Rest d.db ∧ (d.closed = true → d.db = [])

/-- The invariant of the whole block: the channel table is in its canonical form, only streams the block has are used, and every
decoder is at rest. -/
structure State.Inv (s : State) : Prop where
  chans_wf : chansWf s.chans = true
  streams_exist : ∀ d, s.chan d ≠ Channel.initial → hasStream d = true
  port_exists : hasStream s.port = true
  at_rest : ∀ d, (s.chan d).dec.AtRest

/-- Performs operations one after another at the instance `port` addresses. -/
def execAll : List Instr → State → Host.Outcome State Fault Refusal
  | [], s => .next s
  | i :: is, s =>
    match exec i s with
    | .next t => execAll is t
    | .fault r => .fault r
    | .refused r => .refused r

/-- The channel of stream `d` in the state an outcome answers, if it answers one. -/
def answeredChan (d : Nat) : Host.Outcome State Fault Refusal → Option Channel
  | .next t => some (t.chan d)
  | .fault _ => none
  | .refused _ => none

/-- The states reached from power-on reset by steps of the block and events of the host, in any order. -/
inductive Reachable : State → Prop where
  | reset : Reachable State.reset
  | step (s t : State) : Reachable s → step s = .next t → Reachable t
  | host (s : State) (e : HostEvent) : Reachable s → Reachable (applyHost e s)

end Sys2Proof.Machine
end

