-- ==== Sys2Proof/Certificates/Slice0/Obligations.lean ====
section
/-! DEFINITION. The statements for the provers. Each docstring names the rule of spec/ it formalises. -/

open Sys2Proof Sys2Proof.Machine

/-! ### Bytes, opcodes, commands -/

/-- spec/00_scope.md R12, spec/20_memory.md R42, R45: the big-endian fields read back what was written. -/
def Obligations.BigEndianFieldsReadBack : Prop :=
  (∀ n, n ≤ 65535 → be16 (hi8 n) (lo8 n) = n) ∧
  (∀ h l : Byte, be16 h l = h.toNat * 256 + l.toNat ∧ hi8 (be16 h l) = h ∧ lo8 (be16 h l) = l) ∧
  (∀ v, v < 2 ^ 32 → ∃ b0 b1 b2 b3, be32Bytes v = [b0, b1, b2, b3] ∧ be32 b0 b1 b2 b3 = v) ∧
  (∀ b0 b1 b2 b3 : Byte, be32Bytes (be32 b0 b1 b2 b3) = [b0, b1, b2, b3]) ∧
  (∀ w : Word64, ∃ b7 b6 b5 b4 b3 b2 b1 b0, be64Bytes w = [b7, b6, b5, b4, b3, b2, b1, b0] ∧
    be64 b7 b6 b5 b4 b3 b2 b1 b0 = w)

/-- spec/30_encoding.md R68, R69: the opcode map, its formats, and the reserved opcodes. -/
def Obligations.OpcodeMapAndReservedOpcodes : Prop :=
  operationOf 0x01 = some .encode ∧ operationOf 0x02 = some .feed ∧ operationOf 0x03 = some .close ∧
  operationOf 0x04 = some .status ∧ operationOf 0x05 = some .reset ∧
  (∀ opc : Byte, operationOf opc = none ↔ opc = 0x00 ∨ 0x06 ≤ opc.toNat) ∧
  (∀ o : Operation, o.format = .oplv ↔ o = .encode ∨ o = .feed)

/-- spec/30_encoding.md R66 to R69, spec/95_test_vectors.md E3, S7, C1, X4, X7: some command words, written out. -/
def Obligations.SampleCommandBytesDecode : Prop :=
  decode [0x01, 0x00, 0x00, 0x00, 0x02, 0x41, 0x42] = .instr (.encode [0x41, 0x42]) [] ∧
  decode [0x02, 0x00, 0x00, 0x00, 0x04, 0x00, 0x05, 0x41, 0x42, 0x04]
    = .instr (.feed [0x00, 0x05, 0x41, 0x42]) [0x04] ∧
  decode [0x03, 0x05] = .instr .close [0x05] ∧
  decode [0x04] = .instr .status [] ∧
  decode [0x05] = .instr .reset [] ∧
  decode [0x06, 0x04] = .reserved 0x06 [0x04] ∧
  decode [0x02, 0x00, 0x00, 0x00] = .incomplete

/-- spec/30_encoding.md R66, R67: the decoder reads back every operation the command port can express, whatever follows it. -/
def Obligations.DecodeOfEncodeIsTheOperation : Prop :=
  ∀ (i : Instr) (rest : List Byte), i.wf = true → decode (encode i ++ rest) = .instr i rest

/-- spec/30_encoding.md R66, R67, R69: what the decoder reads is what stands there; each command has one meaning. -/
def Obligations.EncodeOfDecodeIsTheBytes : Prop :=
  ∀ (bs : List Byte),
    (∀ i rest, decode bs = .instr i rest → i.wf = true ∧ encode i ++ rest = bs) ∧
    (∀ opc rest, decode bs = .reserved opc rest → operationOf opc = none ∧ opc :: rest = bs)

/-- spec/30_encoding.md R74: the size of every command; a command that has not arrived in full is no command. -/
def Obligations.CommandSizesAndUnfinishedCommands : Prop :=
  (∀ p : List Byte, (encode (.encode p)).length = 5 + p.length) ∧
  (∀ c : List Byte, (encode (.feed c)).length = 5 + c.length) ∧
  (encode .close).length = 1 ∧ (encode .status).length = 1 ∧ (encode .reset).length = 1 ∧
  (∀ (i : Instr) (n : Nat), i.wf = true → n < (encode i).length → decode ((encode i).take n) = .incomplete)

/-- spec/30_encoding.md R74: a command that has arrived in part is not ready on its stream, and is ready, as that command, once the
host has sent the rest. -/
def Obligations.UnfinishedCommandWaitsForItsRest : Prop :=
  ∀ (i : Instr) (n d : Nat) (s : State), i.wf = true → hasStream d = true → n < (encode i).length →
    (s.chan d).cmd = (encode i).take n →
    s.ready d = false ∧ (applyHost (.send d ((encode i).drop n)) s).ready d = true ∧
    decode ((applyHost (.send d ((encode i).drop n)) s).chan d).cmd = .instr i []

/-! ### The step -/

/-- A step runs the command decoded at the front of the stream that moves next, after taking its bytes from that stream; what
taking it does to the state (spec/30_encoding.md R66, R74; the last three clauses are the model's own fields, log entries 2, 6). -/
def Obligations.StepRunsTheDecodedCommand : Prop :=
  ∀ (s : State) (d : Nat) (i : Instr) (rest : List Byte),
    s.pick = some d → decode (s.chan d).cmd = .instr i rest →
    step s = exec i (s.take d rest) ∧
    (s.take d rest).chan d = { s.chan d with cmd := rest } ∧
    (∀ e, e ≠ d → (s.take d rest).chan e = s.chan e) ∧
    (s.take d rest).port = d ∧ (s.take d rest).order = s.order.drop 1 ∧ (s.take d rest).tick = s.tick + 1

/-- spec/30_encoding.md R69: a reserved opcode is consumed alone, changes no decoder and is answered `IllegalCommand`; the next
byte of the stream is read as the next opcode. -/
def Obligations.ReservedOpcodeAnswersIllegalCommand : Prop :=
  ∀ (s : State) (d : Nat) (opc : Byte) (rest : List Byte),
    s.pick = some d → (opc = 0x00 ∨ 0x06 ≤ opc.toNat) → (s.chan d).cmd = opc :: rest →
    ∃ t, step s = .next t ∧
      t.chan d = { dec := (s.chan d).dec, cmd := rest, resp := (s.chan d).resp ++ [0x80, opc] } ∧
      ∀ e, e ≠ d → t.chan e = s.chan e

/-- spec/30_encoding.md R74: a step has a next state exactly when a complete command stands on some stream of the block; else it
stops, `idle` or `stuck`, and no step stops for another reason. -/
def Obligations.StepAnswersExactlyWhenACommandIsReady : Prop :=
  ∀ s : State,
    ((∃ d, s.ready d = true) → ∃ t, step s = .next t) ∧
    ((∀ d, s.ready d = false) →
      step s = .fault .stuck ∧ (∃ d, (s.chan d).cmd ≠ []) ∨ step s = .fault .idle ∧ ∀ d, (s.chan d).cmd = [])

/-- The model's own choice (log entry 2): a stream the host has settled to be next, if it is ready, is the one that moves. -/
def Obligations.SettledOrderIsFollowed : Prop :=
  ∀ (s : State) (d : Nat) (ds : List Nat), s.order = d :: ds → s.ready d = true →
    step s = serve d s ∧ ∃ t, step s = .next t ∧ t.order = ds

/-! ### The operations -/

/-- spec/40_encoder.md R85: `ENCODE p`. -/
def Obligations.EncodeAnswersFrameOrPayloadTooLarge : Prop :=
  ∀ (p : List Byte) (s : State), hasStream s.port = true →
    encode (.encode p) = 0x01 :: (be32Bytes p.length ++ p) ∧
    (p.length ≤ 65535 →
      exec (.encode p) s =
        .next (s.answer (s.chan s.port).dec (.frame (hi8 p.length :: lo8 p.length :: p)))) ∧
    (65535 < p.length →
      exec (.encode p) s =
        .next (s.answer (s.chan s.port).dec (.error (.payloadTooLarge p.length 65535))))

/-- spec/40_encoder.md R86: the response to an oversized payload carries its length and the maximum, no frame and no byte of it; two
payloads of one length over the maximum are answered alike. -/
def Obligations.OversizeResponseCarriesNoPayloadByte : Prop :=
  ∀ (p q : List Byte) (s : State), hasStream s.port = true → 65535 < p.length → q.length = p.length →
    ∃ t, exec (.encode p) s = .next t ∧ exec (.encode q) s = .next t ∧
      (t.chan s.port).resp = (s.chan s.port).resp ++ (0x01 :: (be32Bytes p.length ++ [0xFF, 0xFF])) ∧
      (t.chan s.port).dec = (s.chan s.port).dec

/-- spec/40_encoder.md R87: equal payloads are answered alike at any time and in any state, and an ENCODE before an operation does
not change its outcome. -/
def Obligations.EncodeIsPure : Prop :=
  (∀ p : List Byte, ∃ r : Response, ∀ s : State, hasStream s.port = true →
    exec (.encode p) s = .next (s.answer (s.chan s.port).dec r)) ∧
  (∀ (p : List Byte) (i : Instr) (s t : State), exec (.encode p) s = .next t →
    ∃ u v b, exec i s = .next u ∧ exec i t = .next v ∧ (v.chan s.port).dec = (u.chan s.port).dec ∧
      (u.chan s.port).resp = (s.chan s.port).resp ++ b ∧ (v.chan s.port).resp = (t.chan s.port).resp ++ b)

/-- spec/40_encoder.md R88, spec/30_encoding.md R60, R61: what the frame of an accepted payload is. -/
def Obligations.FrameOfAnAcceptedPayload : Prop :=
  (∀ p : List Byte, p.length ≤ 65535 →
    (wireFrame p).length = 2 + p.length ∧ expectedLength (wireFrame p) = some p.length ∧
    (wireFrame p).drop 2 = p ∧ extract (wireFrame p) = ([p], [])) ∧
  (∀ p q : List Byte, p.length ≤ 65535 → q.length ≤ 65535 → wireFrame p = wireFrame q → p = q)

/-- spec/41_decoder.md R95: `FEED c` on an open decoder and on a closed one. -/
def Obligations.FeedAppendsAndExtracts : Prop :=
  ∀ (c : List Byte) (s : State), hasStream s.port = true →
    encode (.feed c) = 0x02 :: (be32Bytes c.length ++ c) ∧
    ((s.chan s.port).dec.closed = true →
      exec (.feed c) s = .next (s.answer (s.chan s.port).dec (.error (.decoderClosed 0x02)))) ∧
    ((s.chan s.port).dec.closed = false →
      exec (.feed c) s =
        .next (s.answer { db := (extract ((s.chan s.port).dec.db ++ c)).2, closed := false }
          (.payloads (extract ((s.chan s.port).dec.db ++ c)).1)))

/-- spec/41_decoder.md R103: `CLOSE`. -/
def Obligations.CloseDiscardsAndReports : Prop :=
  encode .close = [0x03] ∧
  ∀ s : State, hasStream s.port = true →
    ((s.chan s.port).dec.closed = true →
      exec .close s = .next (s.answer (s.chan s.port).dec (.error (.decoderClosed 0x03)))) ∧
    ((s.chan s.port).dec.closed = false → (s.chan s.port).dec.db = [] →
      exec .close s = .next (s.answer { db := [], closed := true } .done)) ∧
    ((s.chan s.port).dec.closed = false → (s.chan s.port).dec.db ≠ [] →
      exec .close s = .next (s.answer { db := [], closed := true }
        (.error (.incompleteInput (s.chan s.port).dec.db.length (phase (s.chan s.port).dec.db)))))

/-- spec/42_control.md R120: `STATUS`; what its word shows is `StatusWordFields`. -/
def Obligations.StatusAnswersTheStatusWord : Prop :=
  encode .status = [0x04] ∧
  ∀ s : State, hasStream s.port = true →
    exec .status s = .next (s.answer (s.chan s.port).dec (.status (statusWord (s.chan s.port).dec)))

/-- spec/42_control.md R121: `RESET`. -/
def Obligations.ResetMakesAFreshDecoderAndReports : Prop :=
  encode .reset = [0x05] ∧
  ∀ s : State, hasStream s.port = true →
    ((s.chan s.port).dec.closed = false → (s.chan s.port).dec.db ≠ [] →
      exec .reset s = .next (s.answer { db := [], closed := false }
        (.error (.incompleteInput (s.chan s.port).dec.db.length (phase (s.chan s.port).dec.db))))) ∧
    ((s.chan s.port).dec.closed = true ∨ (s.chan s.port).dec.db = [] →
      exec .reset s = .next (s.answer { db := [], closed := false } .done))

/-- spec/41_decoder.md R104: a closed decoder refuses FEED and CLOSE unchanged, still answers STATUS and ENCODE, and RESET makes it
a fresh one. -/
def Obligations.ClosedDecoderRefusesUntilReset : Prop :=
  ∀ s : State, hasStream s.port = true → (s.chan s.port).dec.closed = true →
    (∀ c, ∃ t, exec (.feed c) s = .next t ∧ t.chan s.port =
      { s.chan s.port with resp := (s.chan s.port).resp ++ [0x81, 0x02] }) ∧
    (∃ t, exec .close s = .next t ∧ t.chan s.port =
      { s.chan s.port with resp := (s.chan s.port).resp ++ [0x81, 0x03] }) ∧
    (∃ t, exec .status s = .next t ∧ t.chan s.port =
      { s.chan s.port with resp := (s.chan s.port).resp ++ (0x00 :: be64Bytes (statusWord (s.chan s.port).dec)) }) ∧
    (∃ t, exec .reset s = .next t ∧ (t.chan s.port).dec = { db := [], closed := false } ∧
      (t.chan s.port).resp = (s.chan s.port).resp ++ [0x00]) ∧
    (∀ p, p.length ≤ 65535 → ∃ t, exec (.encode p) s = .next t ∧ t.chan s.port =
      { s.chan s.port with resp := (s.chan s.port).resp ++ (Response.frame (wireFrame p)).bytes })

/-- spec/10_state.md R30: the fields of the STATUS word of a decoder at rest. -/
def Obligations.StatusWordFields : Prop :=
  ∀ d : Decoder, d.AtRest →
    (statusExpLen (statusWord d)).toNat = (expectedLength d.db).getD 0 ∧
    (statusCount (statusWord d)).toNat = d.db.length ∧
    statusPhase (statusWord d) = (phase d.db).bit ∧
    statusClosed (statusWord d) = d.closed ∧
    (statusWord d).extractLsb' 35 29 = 0 ∧
    (d.closed = true → statusWord d = 0x0000000400000000) ∧
    (statusPhase (statusWord d) = false →
      (statusCount (statusWord d)).toNat ≤ 1 ∧ statusExpLen (statusWord d) = 0)

/-- spec/20_memory.md R49: STATUS writes nothing, and any number of STATUS operations in a row return the same word. -/
def Obligations.StatusHasNoSideEffect : Prop :=
  ∀ (n : Nat) (s : State), hasStream s.port = true →
    ∃ t, execAll (List.replicate n .status) s = .next t ∧
      (∀ d, (t.chan d).dec = (s.chan d).dec) ∧ (∀ d, d ≠ s.port → t.chan d = s.chan d) ∧
      (t.chan s.port).resp = (s.chan s.port).resp ++
        (List.replicate n (0x00 :: be64Bytes (statusWord (s.chan s.port).dec))).flatten

/-! ### Frame extraction -/

/-- spec/10_state.md R22, R23: `PHASE` and `EXPECTED_LENGTH` are functions of the Decode Buffer. -/
def Obligations.PhaseAndExpectedLength : Prop :=
  (∀ db : List Byte, db.length < 2 → phase db = .awaitingLength ∧ expectedLength db = none) ∧
  (∀ (h l : Byte) (db : List Byte),
    phase (h :: l :: db) = .awaitingPayload ∧ expectedLength (h :: l :: db) = some (be16 h l) ∧ be16 h l ≤ 65535) ∧
  Phase.awaitingLength.bit = false ∧ Phase.awaitingPayload.bit = true

/-- spec/41_decoder.md R96, R101: one round of EXTRACT, by how much of the front frame is buffered. -/
def Obligations.ExtractRoundByRound : Prop :=
  (∀ db : List Byte, db.length < 2 → extract db = ([], db)) ∧
  (∀ (h l : Byte) (body : List Byte), body.length < be16 h l → extract (h :: l :: body) = ([], h :: l :: body)) ∧
  (∀ (h l : Byte) (body : List Byte), be16 h l ≤ body.length →
    extract (h :: l :: body) =
      (body.take (be16 h l) :: (extract (body.drop (be16 h l))).1, (extract (body.drop (be16 h l))).2))

/-- spec/41_decoder.md R96, R97, R98: EXTRACT is the one way to read a buffer as complete frames, in order, and a remainder that
holds no complete frame; every payload emitted is whole. -/
def Obligations.ExtractIsTheOnlyFrameParse : Prop :=
  ∀ db : List Byte,
    (db = wireStream (extract db).1 ++ (extract db).2 ∧ Rest (extract db).2 ∧
      ∀ p ∈ (extract db).1, p.length ≤ 65535) ∧
    (∀ (ps : List (List Byte)) (rest : List Byte), (∀ p ∈ ps, p.length ≤ 65535) → Rest rest →
      db = wireStream ps ++ rest → ps = (extract db).1 ∧ rest = (extract db).2)

/-- spec/41_decoder.md R100: an empty chunk on an open decoder at rest changes nothing and emits nothing. -/
def Obligations.EmptyChunkChangesNothing : Prop :=
  ∀ s : State, hasStream s.port = true → (s.chan s.port).dec.closed = false → Rest (s.chan s.port).dec.db →
    exec (.feed []) s = .next (s.answer (s.chan s.port).dec (.payloads []))

/-- spec/41_decoder.md R102, spec/30_encoding.md R63: a frame of length 0 completes with its second byte; no decoder at rest expects
0 bytes. -/
def Obligations.ZeroLengthFrameCompletesAtOnce : Prop :=
  wireFrame [] = [0x00, 0x00] ∧
  (∀ db : List Byte, extract (0x00 :: 0x00 :: db) = ([] :: (extract db).1, (extract db).2)) ∧
  (∀ db : List Byte, Rest db → expectedLength db ≠ some 0)

/-- spec/41_decoder.md R99: for every open state, a chunk fed in two parts, or in any number of parts, leaves the same buffer and
emits the same payloads in the same order as the whole chunk fed at once. -/
def Obligations.ChunkSplitIsUnobservable : Prop :=
  (∀ (a b : List Byte) (s : State), hasStream s.port = true → (s.chan s.port).dec.closed = false →
    ∃ t u v o1 o2, exec (.feed a) s = .next t ∧ exec (.feed b) t = .next u ∧ exec (.feed (a ++ b)) s = .next v ∧
      (u.chan s.port).dec = (v.chan s.port).dec ∧
      (t.chan s.port).resp = (s.chan s.port).resp ++ (Response.payloads o1).bytes ∧
      (u.chan s.port).resp = (t.chan s.port).resp ++ (Response.payloads o2).bytes ∧
      (v.chan s.port).resp = (s.chan s.port).resp ++ (Response.payloads (o1 ++ o2)).bytes) ∧
  (∀ (cs : List (List Byte)) (s : State), cs ≠ [] → hasStream s.port = true → (s.chan s.port).dec.closed = false →
    ∃ (t v : State) (outs : List (List (List Byte))),
      execAll (cs.map .feed) s = .next t ∧ exec (.feed cs.flatten) s = .next v ∧
      (t.chan s.port).dec = (v.chan s.port).dec ∧ outs.length = cs.length ∧
      (t.chan s.port).resp = (s.chan s.port).resp ++ (outs.flatMap fun o => (Response.payloads o).bytes) ∧
      (v.chan s.port).resp = (s.chan s.port).resp ++ (Response.payloads outs.flatten).bytes)

/-- spec/41_decoder.md R97, R99, spec/20_memory.md R51, spec/30_encoding.md R77, spec/70_reset_and_hazards.md R154: a stream of frames
fed to a fresh decoder in any chunks gives exactly its payloads, in order, each in the response to the chunk that completes its
frame, and leaves the unfinished tail in the buffer. -/
def Obligations.AnyChunkingDeliversThePayloads : Prop :=
  ∀ (ps : List (List Byte)) (tail : List Byte) (cs : List (List Byte)) (s : State),
    (∀ p ∈ ps, p.length ≤ 65535) → Rest tail → cs.flatten = wireStream ps ++ tail →
    hasStream s.port = true → (s.chan s.port).dec = Decoder.initial →
    ∃ (t : State) (outs : List (List (List Byte))), execAll (cs.map .feed) s = .next t ∧ outs.length = cs.length ∧ outs.flatten = ps ∧
      (∀ j, (outs.take j).flatten = (extract (cs.take j).flatten).1) ∧
      (t.chan s.port).dec = { db := tail, closed := false } ∧
      (t.chan s.port).resp = (s.chan s.port).resp ++ outs.flatMap fun o => (Response.payloads o).bytes

/-- spec/40_encoder.md R88, spec/95_test_vectors.md S2: the frame ENCODE answers, fed to a fresh decoder, gives the payload back. -/
def Obligations.EncodeThenFeedReturnsThePayload : Prop :=
  ∀ (p : List Byte) (s : State), p.length ≤ 65535 → hasStream s.port = true → (s.chan s.port).dec = Decoder.initial →
    ∃ f t u, exec (.encode p) s = .next t ∧ exec (.feed f) t = .next u ∧
      (t.chan s.port).resp = (s.chan s.port).resp ++ (Response.frame f).bytes ∧
      (u.chan s.port).resp = (t.chan s.port).resp ++ (Response.payloads [p]).bytes ∧
      (u.chan s.port).dec = Decoder.initial

/-- spec/41_decoder.md R105: taking the bytes of a chunk one at a time, with EXTRACT after each, gives what FEED gives, and never holds
more than `DB_CAP` bytes. -/
def Obligations.ByteSerialFeedAgrees : Prop :=
  ∀ db c : List Byte, Rest db →
    serialFeed db c = extract (db ++ c) ∧ ∀ n ∈ serialOccupancy db c, n ≤ Config.dbCap

/-- spec/10_state.md R23, R31, spec/90_conflicts.md C5: a decoder that consumes the length field and caches it emits what FEED emits,
and its registers equal, after every chunk, what R22 and R23 compute from the buffer. -/
def Obligations.CachedLengthRealizationAgrees : Prop :=
  ∀ (c : List Byte) (r : CachedRegs), Rest r.db →
    (CachedRegs.feed c r).1 = (extract (r.db ++ c)).1 ∧
    (CachedRegs.feed c r).2.db = (extract (r.db ++ c)).2 ∧
    (CachedRegs.feed c r).2.phase = phase (extract (r.db ++ c)).2 ∧
    (CachedRegs.feed c r).2.expected = expectedLength (extract (r.db ++ c)).2

/-- spec/10_state.md R25: the bound of a Decode Buffer at rest, and that it is reached. -/
def Obligations.RestingBufferBound : Prop :=
  (∀ db : List Byte, Rest db → db.length ≤ 65536 ∧ (phase db = .awaitingLength → db.length ≤ 1)) ∧
  (∀ got : List Byte, got.length = 65534 → Rest (0xFF :: 0xFF :: got) ∧ (0xFF :: 0xFF :: got : List Byte).length = 65536)

/-! ### Frames, independence, order -/

/-- spec/10_state.md R33, R26: an operation reads and writes only the decoder it addresses and that instance's response stream; ENCODE
and STATUS write no decoder. -/
def Obligations.OperationTouchesOnlyItsInstance : Prop :=
  (∀ (i : Instr) (s t : State), exec i s = .next t →
    (∀ d, d ≠ s.port → t.chan d = s.chan d) ∧ (t.chan s.port).cmd = (s.chan s.port).cmd ∧
    t.port = s.port ∧ t.order = s.order ∧ t.tick = s.tick ∧
    (∃ r : Response, (t.chan s.port).resp = (s.chan s.port).resp ++ r.bytes) ∧
    ((∃ p, i = .encode p) ∨ i = .status → (t.chan s.port).dec = (s.chan s.port).dec)) ∧
  (∀ (i : Instr) (s s' t t' : State), exec i s = .next t → exec i s' = .next t' →
    (s.chan s.port).dec = (s'.chan s'.port).dec →
    (t.chan s.port).dec = (t'.chan s'.port).dec ∧
    ∃ b, (t.chan s.port).resp = (s.chan s.port).resp ++ b ∧ (t'.chan s'.port).resp = (s'.chan s'.port).resp ++ b)

/-- spec/20_memory.md R53: two orders of the same commands on the streams give every instance the same decoder and the same
responses, or both cannot be run. -/
def Obligations.InterleavingIsUnobservable : Prop :=
  ∀ (ds es : List Nat) (s : State), ds.Perm es →
    ∀ d, answeredChan d (serveAll ds s) = answeredChan d (serveAll es s)

/-- spec/10_state.md R33: what an instance becomes depends on its own channel and on how many of its own commands are taken, not on
any other instance, its commands or the order. -/
def Obligations.InstanceSeesOnlyItsOwnCommands : Prop :=
  ∀ (d : Nat) (ds es : List Nat) (s t s' t' : State), s.chan d = t.chan d → ds.count d = es.count d →
    serveAll ds s = .next s' → serveAll es t = .next t' → s'.chan d = t'.chan d

/-- spec/10_state.md R32: what has been returned on a response stream stays as it is, whatever commands follow. -/
def Obligations.ReturnedResponsesNeverChange : Prop :=
  ∀ (ds : List Nat) (s t : State), serveAll ds s = .next t → ∀ d, (s.chan d).resp <+: (t.chan d).resp

/-- spec/20_memory.md R52, spec/30_encoding.md R66: the commands of one stream are performed in stream order, each in the state the
one before it left. -/
def Obligations.CommandsRunInStreamOrder : Prop :=
  ∀ (is : List Instr) (rest : List Byte) (d : Nat) (s : State), (∀ i ∈ is, i.wf = true) → hasStream d = true →
    (s.chan d).cmd = is.flatMap encode ++ rest →
    ∃ t u, serveAll (List.replicate is.length d) s = .next t ∧ execAll is { s with port := d } = .next u ∧
      (t.chan d).dec = (u.chan d).dec ∧ (t.chan d).resp = (u.chan d).resp ∧ (t.chan d).cmd = rest

/-! ### Whole-machine rules -/

/-- spec/10_state.md R29, the `CLOSED` row: only CLOSE sets the closed flag of an instance, and only RESET of the operations clears
it. -/
def Obligations.OnlyCloseSetsAndOnlyResetClearsClosed : Prop :=
  ∀ (s t : State) (d : Nat), step s = .next t →
    ((s.chan d).dec.closed = false → (t.chan d).dec.closed = true →
      ∃ rest, decode (s.chan d).cmd = .instr .close rest) ∧
    ((s.chan d).dec.closed = true → (t.chan d).dec.closed = false →
      ∃ rest, decode (s.chan d).cmd = .instr .reset rest)

/-- spec/20_memory.md R40, R41, spec/40_encoder.md R85, spec/42_control.md R120: a Decode Buffer is changed only by a FEED of the open
decoder, a CLOSE or a RESET on its own stream. -/
def Obligations.OnlyItsOwnOperationsChangeABuffer : Prop :=
  ∀ (s t : State) (d : Nat), step s = .next t → (t.chan d).dec.db ≠ (s.chan d).dec.db →
    (∃ c rest, decode (s.chan d).cmd = .instr (.feed c) rest ∧ (s.chan d).dec.closed = false) ∨
    (∃ rest, decode (s.chan d).cmd = .instr .close rest) ∨ ∃ rest, decode (s.chan d).cmd = .instr .reset rest

/-- spec/30_encoding.md R72, spec/60_exceptions.md R137: a step returns exactly one response, on the stream whose command it took, with
one of the five status codes, and leaves every other channel alone. -/
def Obligations.OneStepReturnsOneResponse : Prop :=
  ∀ s t : State, step s = .next t →
    ∃ d r, s.pick = some d ∧ (t.chan d).resp = (s.chan d).resp ++ Response.bytes r ∧
      r.code ∈ [0x00, 0x01, 0x02, 0x80, 0x81] ∧ ∀ e, e ≠ d → t.chan e = s.chan e

/-- spec/60_exceptions.md R133: `IncompleteInput` is reported only at a teardown, a CLOSE or RESET of an open decoder with bytes
buffered. -/
def Obligations.IncompleteInputOnlyAtTeardown : Prop :=
  ∀ (s t : State) (d c : Nat) (ph : Phase), step s = .next t →
    (t.chan d).resp = (s.chan d).resp ++ (Response.error (.incompleteInput c ph)).bytes →
    (s.chan d).dec.closed = false ∧ (s.chan d).dec.db ≠ [] ∧
    ∃ rest, decode (s.chan d).cmd = .instr .close rest ∨ decode (s.chan d).cmd = .instr .reset rest

/-- spec/60_exceptions.md R143: an open decoder raises no error whatever the bytes fed; it answers OK. -/
def Obligations.NoChunkIsAnErrorWhileOpen : Prop :=
  ∀ (c : List Byte) (s : State), hasStream s.port = true → (s.chan s.port).dec.closed = false →
    ∃ t tail, exec (.feed c) s = .next t ∧ (t.chan s.port).dec.closed = false ∧
      (t.chan s.port).resp = (s.chan s.port).resp ++ (0x00 :: tail)

/-- spec/10_state.md R35: the bytes of a Decode Buffer show in no STATUS, CLOSE or RESET response beyond `COUNT`, `PHASE` and
`EXP_LEN`. -/
def Obligations.TeardownAndStatusHideTheBytes : Prop :=
  ∀ (i : Instr) (s s' : State), i = .close ∨ i = .status ∨ i = .reset →
    hasStream s.port = true → hasStream s'.port = true →
    (s.chan s.port).dec.closed = (s'.chan s'.port).dec.closed →
    (s.chan s.port).dec.db.length = (s'.chan s'.port).dec.db.length →
    expectedLength (s.chan s.port).dec.db = expectedLength (s'.chan s'.port).dec.db →
    ∃ t t' b, exec i s = .next t ∧ exec i s' = .next t' ∧
      (t.chan s.port).resp = (s.chan s.port).resp ++ b ∧ (t'.chan s'.port).resp = (s'.chan s'.port).resp ++ b

/-! ### Responses -/

/-- spec/30_encoding.md R72, R73: the bytes of every response. -/
def Obligations.ResponseLayouts : Prop :=
  (∀ f, (Response.frame f).bytes = 0x00 :: (be32Bytes f.length ++ f)) ∧
  (∀ n, (Response.error (.payloadTooLarge n 65535)).bytes = 0x01 :: (be32Bytes n ++ [0xFF, 0xFF])) ∧
  (∀ ps, (Response.payloads ps).bytes =
    0x00 :: (be32Bytes ps.length ++ ps.flatMap fun p => hi8 p.length :: lo8 p.length :: p)) ∧
  (∀ opc, (Response.error (.decoderClosed opc)).bytes = [0x81, opc]) ∧
  Response.done.bytes = [0x00] ∧
  (∀ c, (Response.error (.incompleteInput c .awaitingLength)).bytes = 0x02 :: (be32Bytes c ++ [0x00])) ∧
  (∀ c, (Response.error (.incompleteInput c .awaitingPayload)).bytes = 0x02 :: (be32Bytes c ++ [0x01])) ∧
  (∀ w, (Response.status w).bytes = 0x00 :: be64Bytes w) ∧
  (∀ opc, (Response.error (.illegalCommand opc)).bytes = [0x80, opc])

/-- spec/30_encoding.md R71: the response to any command can be split off its stream and read back from the opcode of the command,
its status code and its own length fields. -/
def Obligations.ResponsesAreSelfDelimiting : Prop :=
  (∀ (i : Instr) (s : State), i.wf = true → hasStream s.port = true → (s.chan s.port).dec.AtRest →
    ∃ t r, exec i s = .next t ∧ (t.chan s.port).resp = (s.chan s.port).resp ++ Response.bytes r ∧
      ∀ more, readResponse i.operation.opcode (r.bytes ++ more) = some (r, more)) ∧
  (∀ (opc o : Byte) (more : List Byte),
    readResponse opc ((Response.error (.illegalCommand o)).bytes ++ more) = some (.error (.illegalCommand o), more))

/-! ### Reset and invariants -/

/-- spec/10_state.md R34, spec/70_reset_and_hazards.md R150: power-on reset from any state leaves every instance open with an empty
buffer, its STATUS word 0 and both its streams empty. -/
def Obligations.PowerOnResetLeavesInitialState : Prop :=
  ∀ (s : State) (d : Nat), (applyHost .powerOn s).chan d = State.reset.chan d ∧
    (State.reset.chan d).dec.db = [] ∧ (State.reset.chan d).dec.closed = false ∧
    phase (State.reset.chan d).dec.db = .awaitingLength ∧ expectedLength (State.reset.chan d).dec.db = none ∧
    statusWord (State.reset.chan d).dec = 0 ∧ (State.reset.chan d).cmd = [] ∧ (State.reset.chan d).resp = []

/-- spec/70_reset_and_hazards.md R151: the RESET command leaves the decoder as power-on reset does; it differs in that it responds,
and reports the bytes it discards from an open decoder. -/
def Obligations.ResetCommandReachesThePowerOnState : Prop :=
  ∀ s : State, hasStream s.port = true →
    ∃ t, exec .reset s = .next t ∧
      (t.chan s.port).dec = ((applyHost .powerOn s).chan s.port).dec ∧
      ((applyHost .powerOn s).chan s.port).resp = [] ∧
      (t.chan s.port).resp = (s.chan s.port).resp ++
        (if (s.chan s.port).dec.closed = false ∧ (s.chan s.port).dec.db ≠ [] then
          (Response.error (.incompleteInput (s.chan s.port).dec.db.length (phase (s.chan s.port).dec.db))).bytes
        else [0x00])

/-- The invariant holds at reset (spec/10_state.md R34; the canonical form and the port are the model's, log entries 5, 6). -/
def Obligations.ResetStateMeetsTheInvariant : Prop := State.reset.Inv

/-- spec/10_state.md R24: every step keeps every decoder at rest, a closed decoder's buffer empty, and the channel table canonical. -/
def Obligations.StepKeepsTheInvariant : Prop :=
  ∀ s t : State, s.Inv → step s = .next t → t.Inv

/-- Every host event keeps the invariant (spec/70_reset_and_hazards.md R161; the events are the model's form of it, log entry 9). -/
def Obligations.HostEventKeepsTheInvariant : Prop :=
  ∀ (e : HostEvent) (s : State), s.Inv → (applyHost e s).Inv

/-- spec/10_state.md R24, R25: in every state the block and its host can reach, no buffer holds a complete frame, none holds more
than 65536 bytes, and a closed decoder's is empty. -/
def Obligations.ReachableBuffersAreAtRest : Prop :=
  ∀ (s : State) (d : Nat), Reachable s →
    Rest (s.chan d).dec.db ∧ (s.chan d).dec.db.length ≤ 65536 ∧
    ((s.chan d).dec.closed = true → (s.chan d).dec.db = [])

/-- spec/60_exceptions.md R139, spec/00_scope.md R8: the block has streams 1 to `N_DEC`, at least one; an operation addressed to
another has no instance to act on. -/
def Obligations.OnlyExistingInstancesAreAddressed : Prop :=
  1 ≤ Config.nDec ∧ (∀ d, hasStream d = true ↔ 1 ≤ d ∧ d ≤ Config.nDec) ∧
  (∀ (i : Instr) (s : State), hasStream s.port = false → exec i s = .fault .noSuchInstance)

/-! ### The assembler -/

/-- spec/30_encoding.md R76: the expansions of the pseudo-instructions. -/
def Obligations.PseudoInstructionsExpand : Prop :=
  (∀ b : Byte, (AsmLine.feedByte b).expand = some [.feed [b]]) ∧
  (∀ (e : ByteExpr) (s : List Byte) (k : Nat), e.value = some s → 1 ≤ k → s.length ≤ Config.maxArg →
    (AsmLine.feedSplit e k).expand = some ((splitChunks s k).map .feed)) ∧
  (∀ (s : List Byte) (k : Nat), 1 ≤ k → (splitChunks s k).flatten = s ∧ (∀ c ∈ splitChunks s k, c.length ≤ k) ∧
    (s = [] → splitChunks s k = [[]]) ∧
    (s ≠ [] → (splitChunks s k).length = (s.length + k - 1) / k ∧
      (∀ i < (splitChunks s k).length, (splitChunks s k)[i]? = some ((s.drop (i * k)).take k)) ∧
      (∀ c ∈ splitChunks s k, c ≠ []))) ∧
  (∀ e : ByteExpr, (AsmLine.feedSplit e 0).expand = none) ∧
  (∀ (e : ByteExpr) (p : List Byte), e.value = some p → p.length ≤ 65535 →
    (AsmLine.loopback e).expand = some [.encode p, .feed (hi8 p.length :: lo8 p.length :: p)]) ∧
  (∀ (e : ByteExpr) (p : List Byte), e.value = some p → 65535 < p.length → (AsmLine.loopback e).expand = none)

/-- spec/30_encoding.md R75: what the lines of operations assemble to, for every argument the command port can express. -/
def Obligations.OperationLinesAssemble : Prop :=
  (∀ (e : ByteExpr) (p : List Byte), e.value = some p → p.length ≤ Config.maxArg →
    assemble [.encode e, .feed e, .close, .status, .reset] =
      some [.encode p, .feed p, .close, .status, .reset] ∧
    encode (.encode p) = [0x01] ++ be32Bytes p.length ++ p ∧ encode (.feed p) = [0x02] ++ be32Bytes p.length ++ p ∧
    encode .close = [0x03] ∧ encode .status = [0x04] ∧ encode .reset = [0x05]) ∧
  (∀ bs, (ByteExpr.list bs).value = some bs) ∧
  (∀ n b, (ByteExpr.rep n b).value = some (List.replicate n b)) ∧
  (∀ cs : List Char, (∀ c ∈ cs, printable c = true) →
    (ByteExpr.text cs).value = some (cs.map fun c => BitVec.ofNat 8 c.toNat)) ∧
  (∀ (x y : ByteExpr) (a b : List Byte), x.value = some a → y.value = some b → (ByteExpr.cat x y).value = some (a ++ b))
end

