-- ==== Sys2Proof/Laws/Bytes.lean ====
section
/-! SUPPORT. The big-endian fields and the argument of a command. -/

namespace Sys2Proof

theorem be16_le (h l : Byte) : be16 h l ≤ 65535 := by
  have := h.isLt
  have := l.isLt
  unfold be16
  omega

/-- The two bytes of a length give the length back (spec/00_scope.md R12). -/
theorem be16_hi8_lo8 (n : Nat) (h : n ≤ 65535) : be16 (hi8 n) (lo8 n) = n := by
  simp only [be16, hi8, lo8, BitVec.toNat_ofNat]
  omega

theorem hi8_be16 (h l : Byte) : hi8 (be16 h l) = h := by
  have := h.isLt
  have := l.isLt
  apply BitVec.eq_of_toNat_eq
  simp only [be16, hi8, BitVec.toNat_ofNat]
  omega

theorem lo8_be16 (h l : Byte) : lo8 (be16 h l) = l := by
  have := h.isLt
  have := l.isLt
  apply BitVec.eq_of_toNat_eq
  simp only [be16, lo8, BitVec.toNat_ofNat]
  omega

theorem be32_lt (b0 b1 b2 b3 : Byte) : be32 b0 b1 b2 b3 < 4294967296 := by
  have := b0.isLt
  have := b1.isLt
  have := b2.isLt
  have := b3.isLt
  unfold be32
  omega

/-- The four bytes of a 32-bit field give the value back. -/
theorem be32_of_be32Bytes (v : Nat) (h : v < 4294967296) :
    be32 (BitVec.ofNat 8 (v / 16777216)) (BitVec.ofNat 8 (v / 65536)) (BitVec.ofNat 8 (v / 256)) (BitVec.ofNat 8 v) = v := by
  simp only [be32, BitVec.toNat_ofNat]
  omega

theorem be32Bytes_be32 (b0 b1 b2 b3 : Byte) : be32Bytes (be32 b0 b1 b2 b3) = [b0, b1, b2, b3] := by
  have := b0.isLt
  have := b1.isLt
  have := b2.isLt
  have := b3.isLt
  simp only [be32Bytes, List.cons.injEq, and_true]
  refine ⟨?_, ?_, ?_, ?_⟩ <;> apply BitVec.eq_of_toNat_eq <;> simp only [be32, BitVec.toNat_ofNat] <;> omega

/-- A 32-bit field that stands in full is read back. -/
theorem readBe32_be32Bytes (v : Nat) (h : v < 4294967296) (rest : List Byte) :
    readBe32 (be32Bytes v ++ rest) = some (v, rest) := by
  simp only [be32Bytes, List.cons_append, List.nil_append, readBe32, be32_of_be32Bytes v h]

/-- Everything `readBe32` can answer. -/
theorem readBe32_some (bs rest : List Byte) (n : Nat) (h : readBe32 bs = some (n, rest)) :
    n < 4294967296 ∧ be32Bytes n ++ rest = bs := by
  unfold readBe32 at h
  split at h
  · next b1 b2 b3 b4 r =>
    obtain ⟨rfl, rfl⟩ := Prod.mk.inj (Option.some.inj h)
    exact ⟨be32_lt b1 b2 b3 b4, by rw [be32Bytes_be32]; rfl⟩
  · cases h

@[simp] theorem readBytes_append (p rest : List Byte) : readBytes p.length (p ++ rest) = some (p, rest) := by
  simp [readBytes]

/-- Everything `readBytes` can answer. -/
theorem readBytes_some (n : Nat) (bs p rest : List Byte) (h : readBytes n bs = some (p, rest)) :
    p.length = n ∧ p ++ rest = bs := by
  unfold readBytes at h
  split at h
  · cases h
  · next hn =>
    obtain ⟨rfl, rfl⟩ := Prod.mk.inj (Option.some.inj h)
    exact ⟨by rw [List.length_take]; omega, List.take_append_drop n bs⟩

/-- Reading an argument that stands in full. -/
theorem readArg_be32Bytes (data rest : List Byte) (h : data.length ≤ Config.maxArg) :
    readArg (be32Bytes data.length ++ (data ++ rest)) = some (data, rest) := by
  have hlt : data.length < 4294967296 := Nat.lt_succ_of_le h
  simp only [readArg, readBe32_be32Bytes _ hlt, readBytes_append]

/-- Everything `readArg` can answer. -/
theorem readArg_some (bs data rest : List Byte) (h : readArg bs = some (data, rest)) :
    data.length ≤ Config.maxArg ∧ be32Bytes data.length ++ (data ++ rest) = bs := by
  unfold readArg at h
  split at h
  · cases h
  · next n body hb =>
    obtain ⟨hn, hbs⟩ := readBe32_some _ _ _ hb
    obtain ⟨hl, hd⟩ := readBytes_some _ _ _ _ h
    exact ⟨by rw [hl]; exact Nat.le_of_lt_succ hn, by rw [hl, hd, hbs]⟩

end Sys2Proof
end

