-- ==== Sys2Proof/Laws/Chans.lean ====
section
/-! SUPPORT. The table of channels: a read after a write, and that a write keeps the canonical form. -/

namespace Sys2Proof.Machine

theorem lookupChan_dropChan (l : List (Nat × Channel)) (d e : Nat) :
    lookupChan (dropChan l d) e = if e = d then Channel.initial else lookupChan l e := by
  induction l with
  | nil => simp [dropChan, lookupChan]
  | cons p t ih =>
    obtain ⟨k, x⟩ := p
    by_cases hk : k = d
    · rw [show dropChan ((k, x) :: t) d = dropChan t d by simp [dropChan, hk], ih]
      by_cases he : e = d
      · simp [he]
      · simp [lookupChan, he, hk, Ne.symm he]
    · rw [show dropChan ((k, x) :: t) d = (k, x) :: dropChan t d by simp [dropChan, hk]]
      by_cases he : e = d
      · simpa [lookupChan, he, hk] using ih
      · simp [lookupChan, ih, he]

theorem lookupChan_insertChan (l : List (Nat × Channel)) (d : Nat) (c : Channel) (e : Nat)
    (h : ∀ p ∈ l, p.1 ≠ d) :
    lookupChan (insertChan l d c) e = if e = d then c else lookupChan l e := by
  induction l with
  | nil => simp [insertChan, lookupChan, eq_comm]
  | cons p t ih =>
    obtain ⟨k, x⟩ := p
    have hk : k ≠ d := h (k, x) (by simp)
    have iht := ih fun p hp => h p (by simp [hp])
    by_cases hd : d < k
    · simp only [insertChan, if_pos hd, lookupChan]
      by_cases he : e = d
      · simp [he]
      · simp [he, Ne.symm he]
    · simp only [insertChan, if_neg hd, lookupChan, iht]
      by_cases he : e = d
      · subst he; simp [hk]
      · simp [he]

theorem dropChan_key (l : List (Nat × Channel)) (d : Nat) : ∀ p ∈ dropChan l d, p.1 ≠ d := by
  intro p hp
  simpa [dropChan] using (List.mem_filter.mp hp).2

/-- A written channel is read back, and every other number reads as before. -/
theorem lookupChan_storeChan (l : List (Nat × Channel)) (d : Nat) (c : Channel) (e : Nat) :
    lookupChan (storeChan l d c) e = if e = d then c else lookupChan l e := by
  unfold storeChan
  split
  · next h => rw [lookupChan_dropChan, h]
  · rw [lookupChan_insertChan _ _ _ _ (dropChan_key l d), lookupChan_dropChan]
    split <;> rfl

/-- What the canonical form says of a table with a first entry. -/
theorem chansWf_cons (k : Nat) (c : Channel) (t : List (Nat × Channel)) :
    chansWf ((k, c) :: t) = true ↔ c ≠ Channel.initial ∧ (∀ p ∈ t, k < p.1) ∧ chansWf t = true := by
  simp [chansWf, and_assoc]

theorem chansWf_dropChan (l : List (Nat × Channel)) (d : Nat) (h : chansWf l = true) : chansWf (dropChan l d) = true := by
  induction l with
  | nil => rfl
  | cons p t ih =>
    obtain ⟨k, x⟩ := p
    obtain ⟨hx, hlt, ht⟩ := (chansWf_cons k x t).mp h
    by_cases hk : k = d
    · simpa [dropChan, hk] using ih ht
    · have : dropChan ((k, x) :: t) d = (k, x) :: dropChan t d := by simp [dropChan, hk]
      rw [this, chansWf_cons]
      exact ⟨hx, fun p hp => hlt p (List.mem_of_mem_filter hp), ih ht⟩

theorem mem_insertChan (l : List (Nat × Channel)) (d : Nat) (c : Channel) (p : Nat × Channel) :
    p ∈ insertChan l d c ↔ p = (d, c) ∨ p ∈ l := by
  induction l with
  | nil => simp [insertChan]
  | cons q t ih =>
    obtain ⟨k, x⟩ := q
    unfold insertChan
    split
    · simp
    · simp [ih, or_left_comm]

theorem chansWf_insertChan (l : List (Nat × Channel)) (d : Nat) (c : Channel) (h : chansWf l = true)
    (hd : ∀ p ∈ l, p.1 ≠ d) (hc : c ≠ Channel.initial) : chansWf (insertChan l d c) = true := by
  induction l with
  | nil => simp [insertChan, chansWf, hc]
  | cons q t ih =>
    obtain ⟨k, x⟩ := q
    obtain ⟨hx, hlt, ht⟩ := (chansWf_cons k x t).mp h
    unfold insertChan
    split
    · next hdk =>
      refine (chansWf_cons ..).mpr ⟨hc, fun p hp => ?_, h⟩
      rcases List.mem_cons.mp hp with rfl | hp
      · exact hdk
      · exact hdk.trans (hlt p hp)
    · next hdk =>
      refine (chansWf_cons ..).mpr ⟨hx, fun p hp => ?_, ih ht fun p hp => hd p (by simp [hp])⟩
      rcases (mem_insertChan ..).mp hp with rfl | hp
      · have := hd (k, x) (by simp)
        dsimp only at this ⊢
        omega
      · exact hlt p hp

/-- A write keeps the canonical form. -/
theorem chansWf_storeChan (l : List (Nat × Channel)) (d : Nat) (c : Channel) (h : chansWf l = true) :
    chansWf (storeChan l d c) = true := by
  unfold storeChan
  split
  · exact chansWf_dropChan l d h
  · next hc => exact chansWf_insertChan _ d c (chansWf_dropChan l d h) (dropChan_key l d) hc

end Sys2Proof.Machine
end

