-- ==== Sys2Proof/Laws/Decode.lean ====
section
/-! SUPPORT. The decoder by the opcode at the front of the stream. -/

namespace Sys2Proof

theorem Instr.wf_iff (i : Instr) : i.wf = true ↔ i.arg.length ≤ Config.maxArg := decide_eq_true_iff

@[simp] theorem operationOf_opcode (o : Operation) : operationOf o.opcode = some o := by cases o <;> rfl

/-- The opcode that spells an operation is its own. -/
theorem opcode_of_operationOf (opc : Byte) (o : Operation) (h : operationOf opc = some o) : opc = o.opcode := by
  apply BitVec.eq_of_toNat_eq
  unfold operationOf at h
  split at h <;> first | (cases h; assumption) | cases h

/-- A command of format OP. -/
theorem decode_op (o : Operation) (tail : List Byte) (h : o.format = .op) :
    decode (o.opcode :: tail) = .instr (o.command []) tail := by
  simp only [decode, operationOf_opcode, h]

/-- A command of format OPLV. -/
theorem decode_oplv (o : Operation) (tail : List Byte) (h : o.format = .oplv) :
    decode (o.opcode :: tail) = match readArg tail with
      | none => .incomplete
      | some (data, rest) => .instr (o.command data) rest := by
  cases hr : readArg tail <;> simp only [decode, operationOf_opcode, h, hr]

/-- A reserved opcode. -/
theorem decode_reserved (opc : Byte) (tail : List Byte) (h : operationOf opc = none) :
    decode (opc :: tail) = .reserved opc tail := by
  simp only [decode, h]

/-- Everything the decoder can answer to a stream that is not empty. -/
theorem decode_cases (opc : Byte) (tail : List Byte) :
    (operationOf opc = none ∧ decode (opc :: tail) = .reserved opc tail) ∨
    (∃ o : Operation, opc = o.opcode ∧ o.format = .op ∧ decode (opc :: tail) = .instr (o.command []) tail) ∨
    (∃ o : Operation, opc = o.opcode ∧ o.format = .oplv ∧ readArg tail = none ∧ decode (opc :: tail) = .incomplete) ∨
    ∃ (o : Operation) (data rest : List Byte), opc = o.opcode ∧ o.format = .oplv ∧ readArg tail = some (data, rest) ∧
      decode (opc :: tail) = .instr (o.command data) rest := by
  cases ho : operationOf opc with
  | none => exact .inl ⟨rfl, decode_reserved opc tail ho⟩
  | some o =>
    obtain rfl := opcode_of_operationOf opc o ho
    cases hf : o.format with
    | op => exact .inr (.inl ⟨o, rfl, hf, decode_op o tail hf⟩)
    | oplv =>
      cases hr : readArg tail with
      | none => exact .inr (.inr (.inl ⟨o, rfl, hf, rfl, by rw [decode_oplv o tail hf, hr]⟩))
      | some dr => exact .inr (.inr (.inr ⟨o, dr.1, dr.2, rfl, hf, rfl, by rw [decode_oplv o tail hf, hr]⟩))

end Sys2Proof
end

