-- ==== Sys2Proof/Laws/State.lean ====
section
/-! SUPPORT. What each update of the state does to each of its fields, so that no proof unfolds an update. -/

namespace Sys2Proof.Machine

@[simp] theorem State.setChan_port (s : State) (d : Nat) (c : Channel) : (s.setChan d c).port = s.port := rfl
@[simp] theorem State.setChan_order (s : State) (d : Nat) (c : Channel) : (s.setChan d c).order = s.order := rfl
@[simp] theorem State.setChan_tick (s : State) (d : Nat) (c : Channel) : (s.setChan d c).tick = s.tick := rfl

theorem State.setChan_chan (s : State) (d : Nat) (c : Channel) (e : Nat) :
    (s.setChan d c).chan e = if e = d then c else s.chan e := lookupChan_storeChan s.chans d c e

@[simp] theorem State.setChan_chan_self (s : State) (d : Nat) (c : Channel) : (s.setChan d c).chan d = c := by
  simp [State.setChan_chan]

theorem State.setChan_chan_other (s : State) (d : Nat) (c : Channel) (e : Nat) (h : e ≠ d) :
    (s.setChan d c).chan e = s.chan e := by
  simp [State.setChan_chan, h]

@[simp] theorem State.answer_port (s : State) (d : Decoder) (r : Response) : (s.answer d r).port = s.port := rfl
@[simp] theorem State.answer_order (s : State) (d : Decoder) (r : Response) : (s.answer d r).order = s.order := rfl
@[simp] theorem State.answer_tick (s : State) (d : Decoder) (r : Response) : (s.answer d r).tick = s.tick := rfl

/-- The addressed channel after an answer. -/
@[simp] theorem State.answer_chan_port (s : State) (d : Decoder) (r : Response) :
    (s.answer d r).chan s.port = { dec := d, cmd := (s.chan s.port).cmd, resp := (s.chan s.port).resp ++ r.bytes } := by
  simp [State.answer]

theorem State.answer_chan_other (s : State) (d : Decoder) (r : Response) (e : Nat) (h : e ≠ s.port) :
    (s.answer d r).chan e = s.chan e := State.setChan_chan_other _ _ _ _ h

@[simp] theorem State.take_port (s : State) (d : Nat) (rest : List Byte) : (s.take d rest).port = d := rfl
@[simp] theorem State.take_order (s : State) (d : Nat) (rest : List Byte) : (s.take d rest).order = s.order.drop 1 := rfl
@[simp] theorem State.take_tick (s : State) (d : Nat) (rest : List Byte) : (s.take d rest).tick = s.tick + 1 := rfl

@[simp] theorem State.take_chan_self (s : State) (d : Nat) (rest : List Byte) :
    (s.take d rest).chan d = { s.chan d with cmd := rest } := State.setChan_chan_self s d { s.chan d with cmd := rest }

theorem State.take_chan_other (s : State) (d : Nat) (rest : List Byte) (e : Nat) (h : e ≠ d) :
    (s.take d rest).chan e = s.chan e := State.setChan_chan_other s d { s.chan d with cmd := rest } e h

@[simp] theorem State.reset_chan (d : Nat) : State.reset.chan d = Channel.initial := rfl

end Sys2Proof.Machine
end

