-- ==== Sys2Proof/Laws/Exec.lean ====
section
/-! SUPPORT. What performing an operation, taking a command and choosing a stream can do, said once. -/

namespace Sys2Proof.Machine

/-- The pseudocode of an operation as a function of the addressed decoder. -/
def Instr.op : Instr → Decoder → Decoder × Response
  | .encode p => fun d => respond d (encodePayload p)
  | .feed c => feedOp c
  | .close => closeOp
  | .status => statusOp
  | .reset => resetOp

/-- Stream 1 always exists. -/
@[simp] theorem hasStream_one : hasStream 1 = true := rfl

theorem exec_eq_perform (i : Instr) (s : State) : exec i s = perform s (Instr.op i) := by cases i <;> rfl

theorem perform_of_hasStream (s : State) (op : Decoder → Decoder × Response) (h : hasStream s.port = true) :
    perform s op = .next (s.answer (op (s.chan s.port).dec).1 (op (s.chan s.port).dec).2) := by
  simp [perform, h]

/-- Everything `perform` can do when it answers a next state. -/
theorem perform_next (s t : State) (op : Decoder → Decoder × Response) (h : perform s op = .next t) :
    hasStream s.port = true ∧ t = s.answer (op (s.chan s.port).dec).1 (op (s.chan s.port).dec).2 := by
  unfold perform at h
  split at h
  · next hs => exact ⟨hs, by cases h; rfl⟩
  · cases h

/-- An operation on an existing instance answers. -/
theorem exec_of_hasStream (i : Instr) (s : State) (h : hasStream s.port = true) :
    exec i s = .next (s.answer (Instr.op i (s.chan s.port).dec).1 (Instr.op i (s.chan s.port).dec).2) := by
  rw [exec_eq_perform, perform_of_hasStream s _ h]

/-- Everything `exec` can do when it answers a next state. -/
theorem exec_next (i : Instr) (s t : State) (h : exec i s = .next t) :
    hasStream s.port = true ∧ t = s.answer (Instr.op i (s.chan s.port).dec).1 (Instr.op i (s.chan s.port).dec).2 :=
  perform_next s t _ (exec_eq_perform i s ▸ h)

/-- What `exec` leaves in each channel when it answers a next state. -/
theorem exec_next_chan (i : Instr) (s t : State) (h : exec i s = .next t) :
    t.port = s.port ∧ (∀ e, e ≠ s.port → t.chan e = s.chan e) ∧
    t.chan s.port = { dec := (Instr.op i (s.chan s.port).dec).1, cmd := (s.chan s.port).cmd,
                      resp := (s.chan s.port).resp ++ (Instr.op i (s.chan s.port).dec).2.bytes } := by
  obtain ⟨-, rfl⟩ := exec_next i s t h
  exact ⟨rfl, fun e he => State.answer_chan_other _ _ _ _ he, State.answer_chan_port _ _ _⟩

/-- An operation on an existing instance answers, and what it leaves in each channel. -/
theorem exec_answers (i : Instr) (s : State) (h : hasStream s.port = true) :
    ∃ t, exec i s = .next t ∧ t.port = s.port ∧ (∀ e, e ≠ s.port → t.chan e = s.chan e) ∧
    t.chan s.port = { dec := (Instr.op i (s.chan s.port).dec).1, cmd := (s.chan s.port).cmd,
                      resp := (s.chan s.port).resp ++ (Instr.op i (s.chan s.port).dec).2.bytes } :=
  ⟨_, exec_of_hasStream i s h, exec_next_chan i s _ (exec_of_hasStream i s h)⟩

theorem exec_of_no_stream (i : Instr) (s : State) (h : hasStream s.port = false) : exec i s = .fault .noSuchInstance := by
  simp [exec_eq_perform, perform, h]

/-- The command at the front of a stream, as an operation on the decoder, and the bytes after it. -/
def frontOp (cmd : List Byte) : Option ((Decoder → Decoder × Response) × List Byte) :=
  match decode cmd with
  | .instr i rest => some (Instr.op i, rest)
  | .reserved opc rest => some (fun d => raise d (.illegalCommand opc), rest)
  | .incomplete => none

/-- A stream with a complete command, told by what it begins with. -/
theorem complete_iff_frontOp (cmd : List Byte) : (decode cmd).complete = true ↔ ∃ op rest, frontOp cmd = some (op, rest) := by
  unfold frontOp
  cases decode cmd <;> simp [Decoded.complete]

/-- `serve` by the command at the front of the stream. -/
theorem serve_eq (d : Nat) (s : State) :
    serve d s = match frontOp (s.chan d).cmd with
      | none => .fault .stuck
      | some (op, rest) => perform (s.take d rest) op := by
  unfold serve frontOp
  cases decode (s.chan d).cmd with
  | instr i rest => simp [exec_eq_perform]
  | reserved opc rest => rfl
  | incomplete => rfl

/-- Everything `serve` can do when it answers a next state. -/
theorem serve_next (d : Nat) (s t : State) (h : serve d s = .next t) :
    hasStream d = true ∧ ∃ op rest, frontOp (s.chan d).cmd = some (op, rest) ∧
      t = (s.take d rest).answer (op (s.chan d).dec).1 (op (s.chan d).dec).2 := by
  rw [serve_eq] at h
  split at h
  · cases h
  · next op rest hf =>
    obtain ⟨hs, ht⟩ := perform_next _ _ _ h
    exact ⟨hs, op, rest, hf, by simpa using ht⟩

/-- A ready stream's command answers. -/
theorem serve_of_ready (d : Nat) (s : State) (h : s.ready d = true) :
    ∃ op rest, frontOp (s.chan d).cmd = some (op, rest) ∧
      serve d s = .next ((s.take d rest).answer (op (s.chan d).dec).1 (op (s.chan d).dec).2) := by
  obtain ⟨hs, hc⟩ := Bool.and_eq_true_iff.mp h
  obtain ⟨op, rest, hf⟩ := (complete_iff_frontOp _).mp hc
  refine ⟨op, rest, hf, ?_⟩
  have hp : hasStream (s.take d rest).port = true := hs
  rw [serve_eq, hf]
  simp [perform_of_hasStream _ _ hp]

/-- The channels after a command of stream `d` is taken and answered. -/
theorem served_chan_self (s : State) (d : Nat) (rest : List Byte) (d' : Decoder) (r : Response) :
    ((s.take d rest).answer d' r).chan d = { dec := d', cmd := rest, resp := (s.chan d).resp ++ r.bytes } := by
  simpa using State.answer_chan_port (s.take d rest) d' r

theorem served_chan_other (s : State) (d : Nat) (rest : List Byte) (d' : Decoder) (r : Response) (e : Nat) (h : e ≠ d) :
    ((s.take d rest).answer d' r).chan e = s.chan e := by
  rw [State.answer_chan_other _ _ _ _ (by simpa using h), State.take_chan_other _ _ _ _ h]

/-- The free choice is one of the ready streams, and there is one unless none is ready. -/
theorem freePick_spec (s : State) :
    (s.freePick = none → s.readyStreams = []) ∧ ∀ d, s.freePick = some d → d ∈ s.readyStreams := by
  unfold State.freePick
  split
  · simp_all
  · next d h => simp_all
  · next d e t h =>
    have hlt : Config.freeChoice s.tick % (t.length + 2) < (d :: e :: t).length := by
      simpa using Nat.mod_lt (Config.freeChoice s.tick) (Nat.succ_pos (t.length + 1))
    rw [List.getElem?_eq_getElem hlt, h]
    exact ⟨fun hn => by simp at hn, fun x hx => by cases hx; exact List.getElem_mem hlt⟩

theorem mem_readyStreams (s : State) (d : Nat) (h : d ∈ s.readyStreams) : s.ready d = true := (List.mem_filter.mp h).2

theorem lookupChan_mem (l : List (Nat × Channel)) (d : Nat) (h : lookupChan l d ≠ Channel.initial) : d ∈ l.map Prod.fst := by
  induction l with
  | nil => exact absurd rfl h
  | cons p t ih =>
    obtain ⟨k, x⟩ := p
    unfold lookupChan at h
    split at h
    · next hk => simp [hk]
    · exact List.mem_cons_of_mem _ (ih h)

/-- A ready stream is among the streams chosen from. -/
theorem ready_mem (s : State) (d : Nat) (h : s.ready d = true) : d ∈ s.readyStreams := by
  refine List.mem_filter.mpr ⟨lookupChan_mem _ _ fun hi => ?_, h⟩
  simp [State.ready, State.chan, hi, Channel.initial, decode, Decoded.complete] at h

/-- The stream chosen is ready. -/
theorem pick_ready (s : State) (d : Nat) (h : s.pick = some d) : s.ready d = true := by
  have hf : ∀ d, s.freePick = some d → s.ready d = true := fun d h => mem_readyStreams s d ((freePick_spec s).2 d h)
  unfold State.pick at h
  split at h
  · exact hf d h
  · split at h
    · next hr => cases h; exact hr
    · exact hf d h

/-- No stream is chosen only if none is ready. -/
theorem pick_none (s : State) (h : s.pick = none) (d : Nat) : s.ready d = false := by
  have hf : s.freePick = none → s.ready d = false := fun hn => by
    by_contra hr
    simpa [(freePick_spec s).1 hn] using ready_mem s d (by simpa using hr)
  unfold State.pick at h
  split at h
  · exact hf h
  · split at h
    · cases h
    · exact hf h

/-- Everything a step can do when it answers a next state: it takes the command at the front of the chosen stream, performs it at
that stream's decoder and answers on its response stream. -/
theorem step_next (s t : State) (h : step s = .next t) :
    ∃ d op rest, s.pick = some d ∧ hasStream d = true ∧ frontOp (s.chan d).cmd = some (op, rest) ∧
      t = (s.take d rest).answer (op (s.chan d).dec).1 (op (s.chan d).dec).2 := by
  unfold step at h
  split at h
  · cases h
  · next d hp =>
    obtain ⟨hs, op, rest, hf, ht⟩ := serve_next d s t h
    exact ⟨d, op, rest, hp, hs, hf, ht⟩

end Sys2Proof.Machine
end

