-- ==== Sys2Proof/Laws/Extract.lean ====
section
/-! SUPPORT. The reads of a Decode Buffer, and EXTRACT by what stands at the front of the buffer. -/

namespace Sys2Proof.Machine

@[simp] theorem expectedLength_nil : expectedLength [] = none := rfl
@[simp] theorem expectedLength_one (h : Byte) : expectedLength [h] = none := rfl
@[simp] theorem expectedLength_two (h l : Byte) (body : List Byte) :
    expectedLength (h :: l :: body) = some (be16 h l) := rfl

@[simp] theorem phase_two (h l : Byte) (body : List Byte) : phase (h :: l :: body) = .awaitingPayload := by
  simp [phase, Config.lenFieldBytes]

/-- The buffer at rest, when a whole length field is buffered. -/
theorem rest_two (h l : Byte) (body : List Byte) : Rest (h :: l :: body) ↔ body.length < be16 h l := by
  simp [Rest]

theorem rest_of_short (db : List Byte) (h : db.length < 2) : Rest db := .inl h

/-- One round of the loop, when a whole length field is buffered. -/
theorem extractLoop_two (fuel : Nat) (h l : Byte) (body : List Byte) :
    extractLoop (fuel + 1) (h :: l :: body) =
      if body.length < be16 h l then ([], h :: l :: body)
      else (body.take (be16 h l) :: (extractLoop fuel (body.drop (be16 h l))).1,
        (extractLoop fuel (body.drop (be16 h l))).2) := by
  simp [extractLoop, frontPayload, dbDrop, Config.lenFieldBytes, Nat.add_comm 2]

theorem extractLoop_short (fuel : Nat) (db : List Byte) (h : db.length < 2) : extractLoop fuel db = ([], db) := by
  match fuel, db, h with
  | 0, _, _ => rfl
  | _ + 1, [], _ => rfl
  | _ + 1, [_], _ => rfl

/-- More rounds than bytes change nothing. -/
theorem extractLoop_fuel (m n : Nat) (db : List Byte) (hm : db.length ≤ m) (hn : db.length ≤ n) :
    extractLoop m db = extractLoop n db := by
  induction m generalizing n db with
  | zero => simp [List.eq_nil_of_length_eq_zero (Nat.le_zero.mp hm), extractLoop_short]
  | succ m ih =>
    match n, db, hm, hn with
    | _, [], _, _ => simp [extractLoop_short]
    | _, [_], _, _ => simp [extractLoop_short]
    | n + 1, h :: l :: body, hm, hn =>
      simp only [List.length_cons] at hm hn
      have := ih n (body.drop (be16 h l)) (by simp; omega) (by simp; omega)
      simp [extractLoop_two, this]

theorem extract_short (db : List Byte) (h : db.length < 2) : extract db = ([], db) := extractLoop_short _ db h

/-- EXTRACT, when a whole length field is buffered. -/
theorem extract_two (h l : Byte) (body : List Byte) :
    extract (h :: l :: body) =
      if body.length < be16 h l then ([], h :: l :: body)
      else (body.take (be16 h l) :: (extract (body.drop (be16 h l))).1, (extract (body.drop (be16 h l))).2) := by
  have := extractLoop_fuel (body.length + 1) (body.drop (be16 h l)).length (body.drop (be16 h l)) (by simp; omega) le_rfl
  simp only [extract, List.length_cons, extractLoop_two, this]

/-- A proof about buffers by how EXTRACT takes them apart: short, an incomplete frame, or a complete one and the bytes after it. -/
theorem extract_induction {P : List Byte → Prop} (short : ∀ db, db.length < 2 → P db)
    (partialFrame : ∀ h l body, body.length < be16 h l → P (h :: l :: body))
    (frame : ∀ h l body, be16 h l ≤ body.length → P (body.drop (be16 h l)) → P (h :: l :: body)) (db : List Byte) : P db := by
  suffices ∀ n, ∀ db : List Byte, db.length ≤ n → P db from this _ db le_rfl
  intro n
  induction n with
  | zero => exact fun db h => short db (by omega)
  | succ n ih =>
    intro db hn
    match db, hn with
    | [], _ => exact short [] (by simp)
    | [b], _ => exact short [b] (by simp)
    | h :: l :: body, hn =>
      simp only [List.length_cons] at hn
      by_cases hb : body.length < be16 h l
      · exact partialFrame h l body hb
      · exact frame h l body (by omega) (ih _ (by simp; omega))

/-- EXTRACT leaves a buffer at rest. -/
theorem extract_rest (db : List Byte) : Rest (extract db).2 := by
  induction db using extract_induction with
  | short db h => rw [extract_short db h]; exact .inl h
  | partialFrame h l body hb => rw [extract_two, if_pos hb]; exact (rest_two h l body).mpr hb
  | frame h l body hb ih => rw [extract_two, if_neg (by omega)]; exact ih

/-- EXTRACT does nothing to a buffer at rest. -/
theorem extract_of_rest (db : List Byte) (h : Rest db) : extract db = ([], db) := by
  match db, h with
  | [], _ => exact extract_short [] (by simp)
  | [b], _ => exact extract_short [b] (by simp)
  | a :: l :: body, h => rw [extract_two, if_pos ((rest_two a l body).mp h)]

end Sys2Proof.Machine
end

