-- ==== Sys2Proof/Laws/PerInstr.lean ====
section
/-! SUPPORT. What the encoding of every operation has in common (spec/30_encoding.md R68, R74), one lemma per operation. -/

namespace Sys2Proof.Laws.CommandShape

/-- The command bytes begin with the opcode of the operation's own row, which the decoder reads as that row, and are as many as the
row's format says. -/
def Statement (i : Instr) : Prop :=
  (Sys2Proof.encode i).head? = some i.operation.opcode ∧ operationOf i.operation.opcode = some i.operation ∧
  (Sys2Proof.encode i).length = commandSize i

theorem encode (p : List Byte) : Statement (.encode p) :=
  ⟨rfl, rfl, by simp [Sys2Proof.encode, commandSize, Instr.operation, Operation.format, be32Bytes]; omega⟩

theorem feed (c : List Byte) : Statement (.feed c) :=
  ⟨rfl, rfl, by simp [Sys2Proof.encode, commandSize, Instr.operation, Operation.format, be32Bytes]; omega⟩

theorem close : Statement .close := ⟨rfl, rfl, rfl⟩

theorem status : Statement .status := ⟨rfl, rfl, rfl⟩

theorem reset : Statement .reset := ⟨rfl, rfl, rfl⟩

end Sys2Proof.Laws.CommandShape
end

