-- ==== Sys2Proof/Laws/Status.lean ====
section
/-! SUPPORT. The STATUS word, bit by bit. -/

namespace Sys2Proof.Machine

/-- Which field each bit of the STATUS word belongs to (spec/10_state.md R30). -/
theorem statusWord_getLsbD (d : Decoder) (i : Nat) :
    (statusWord d).getLsbD i =
      if i < 16 then (BitVec.ofNat 16 ((expectedLength d.db).getD 0)).getLsbD i
      else if i < 33 then (BitVec.ofNat 17 d.db.length).getLsbD (i - 16)
      else if i = 33 then (phase d.db).bit
      else if i = 34 then d.closed
      else false := by
  refine (BitVec.getLsbD_append (x := 0#29 ++ BitVec.ofBool d.closed ++ BitVec.ofBool (phase d.db).bit
    ++ BitVec.ofNat 17 d.db.length) (y := BitVec.ofNat 16 ((expectedLength d.db).getD 0))).trans ?_
  simp only [BitVec.getLsbD_append, BitVec.getLsbD_ofBool, BitVec.getLsbD_zero]
  by_cases h1 : i < 16
  · simp [h1]
  by_cases h2 : i < 33
  · simp [h1, h2, show i - 16 < 17 by omega]
  by_cases h3 : i = 33
  · subst h3; simp
  by_cases h4 : i = 34
  · subst h4; simp
  have e1 : ¬ i - 16 < 17 := by omega
  have e2 : ¬ i - 16 - 17 < 1 := by omega
  have e3 : ¬ i - 16 - 17 - 1 < 1 := by omega
  simp [h1, h2, h3, h4, e1, e2, e3]

end Sys2Proof.Machine
end

