-- ==== Sys2Proof/Tests/Slice0.lean ====
section
/-! SUPPORT. Small tests, each named, with expected values from spec/95_test_vectors.md (the vector's id stands in the comment) or
from the rule named; and for each statement with hypotheses a witness that meets them. -/

namespace Sys2Proof.Tests

open Sys2Proof.Machine

/-- Stream 1 with this decoder and these command bytes, the rest at reset. -/
def onStream1 (db : List Byte) (closed : Bool) (cmd : List Byte) : State :=
  { State.reset with chans := [(1, { dec := { db := db, closed := closed }, cmd := cmd, resp := [] })] }

/-- The response bytes on stream 1 after one step. -/
def respAfter (s : State) : Option (List Byte) :=
  match step s with
  | .next t => some (t.chan 1).resp
  | .fault _ => none
  | .refused _ => none

/-- The decoder of stream 1 after one step. -/
def decAfter (s : State) : Option Decoder :=
  match step s with
  | .next t => some (t.chan 1).dec
  | .fault _ => none
  | .refused _ => none

/-- A payload of `n` zero bytes. -/
def zeros (n : Nat) : List Byte := List.replicate n 0

theorem zeros_length (n : Nat) : (zeros n).length = n := List.length_replicate

/-! ### Well-formedness: a term each check refuses -/

theorem test_wf_refuses_long_payload : (Instr.encode (zeros 4294967296)).wf = false := by
  simp [Instr.wf, Instr.arg, zeros_length]

theorem test_wf_refuses_long_chunk : (Instr.feed (zeros 4294967296)).wf = false := by
  simp [Instr.wf, Instr.arg, zeros_length]

/-! ### Decoding: one word of each row, written out from R66 to R68 -/

/-- 0x01, LEN 2, "AB". -/
theorem test_decode_encode : decode [0x01, 0x00, 0x00, 0x00, 0x02, 0x41, 0x42] = .instr (.encode [0x41, 0x42]) [] := by decide

/-- 0x02, LEN 1, 0x07; the next byte is left. -/
theorem test_decode_feed : decode [0x02, 0x00, 0x00, 0x00, 0x01, 0x07, 0x03] = .instr (.feed [0x07]) [0x03] := by decide

theorem test_decode_close : decode [0x03] = .instr .close [] := by decide
theorem test_decode_status : decode [0x04] = .instr .status [] := by decide
theorem test_decode_reset : decode [0x05] = .instr .reset [] := by decide

/-- X1, X2, X3. -/
theorem test_decode_reserved : decode [0x00] = .reserved 0x00 [] ∧ decode [0x06] = .reserved 0x06 [] ∧
    decode [0xFF] = .reserved 0xFF [] := by decide

/-- LEN is big-endian: 0x00000100 is 256, so 2 argument bytes are not enough. -/
theorem test_decode_len_big_endian : decode [0x02, 0x00, 0x00, 0x01, 0x00, 0x41, 0x42] = .incomplete := by decide

/-- X7. -/
theorem test_decode_incomplete : decode [0x02, 0x00, 0x00, 0x00] = .incomplete := by decide

/-- The five rows as the opcode table numbers their bits. -/
theorem test_table_words : decodeTableWord 8 0x01 = some (.encode []) ∧ decodeTableWord 8 0x02 = some (.feed []) ∧
    decodeTableWord 8 0x03 = some .close ∧ decodeTableWord 8 0x04 = some .status ∧ decodeTableWord 8 0x05 = some .reset ∧
    decodeTableWord 8 0x06 = none := by decide

/-- A later byte of a table word: 02 00 00 00 01 07, the sixth byte in bits 47..40. -/
theorem test_table_word_bytes : decodeTableWord 48 0x070100000002 = some (.feed [0x07]) := by decide

/-- A step runs the word placed where it fetches, as the first command after reset. -/
theorem test_fetch_word : step (State.reset.withFetchWord 8 0x03) = exec .close ((State.reset.withFetchWord 8 0x03).take 1 []) := rfl

/-! ### ENCODE -/

/-- E3. -/
theorem test_encode_AB : respAfter (onStream1 [] false [0x01, 0x00, 0x00, 0x00, 0x02, 0x41, 0x42])
    = some [0x00, 0x00, 0x00, 0x00, 0x04, 0x00, 0x02, 0x41, 0x42] := by decide

/-- E7: 65536 is the smallest refused. -/
theorem test_encode_oversize : encodePayload (zeros 65536) = .error (.payloadTooLarge 65536 65535) := by
  simp [encodePayload, zeros_length]

/-- E7, E8: the response bytes. -/
theorem test_oversize_bytes : (Response.error (.payloadTooLarge 65536 65535)).bytes = [0x01, 0x00, 0x01, 0x00, 0x00, 0xFF, 0xFF] ∧
    (Response.error (.payloadTooLarge 70000 65535)).bytes = [0x01, 0x00, 0x01, 0x11, 0x70, 0xFF, 0xFF] := by decide

/-! ### FEED -/

/-- F6: two frames and one byte of a third. -/
theorem test_feed_coalesced : respAfter (onStream1 [] false [0x02, 0, 0, 0, 7, 0x00, 0x01, 0x41, 0x00, 0x01, 0x42, 0x00])
      = some [0x00, 0x00, 0x00, 0x00, 0x02, 0x00, 0x01, 0x41, 0x00, 0x01, 0x42] ∧
    decAfter (onStream1 [] false [0x02, 0, 0, 0, 7, 0x00, 0x01, 0x41, 0x00, 0x01, 0x42, 0x00])
      = some { db := [0x00], closed := false } := by decide

/-- S7: the partial tail completed. -/
theorem test_feed_completes : respAfter (onStream1 [0x00, 0x05, 0x41, 0x42] false [0x02, 0, 0, 0, 3, 0x43, 0x44, 0x45])
    = some [0x00, 0x00, 0x00, 0x00, 0x01, 0x00, 0x05, 0x41, 0x42, 0x43, 0x44, 0x45] := by decide

/-- F7: payload bytes are not read as a length. -/
theorem test_extract_F7 : extract [0x00, 0x02, 0x00, 0x02, 0x00] = ([[0x00, 0x02]], [0x00]) := by decide

/-- F16, P3: an empty frame first. -/
theorem test_extract_F16 : extract [0x00, 0x00, 0x00, 0x01, 0x7A, 0x00, 0x02, 0x41] = ([[], [0x7A]], [0x00, 0x02, 0x41]) := by decide

/-- C7. -/
theorem test_feed_closed : respAfter (onStream1 [] true [0x02, 0, 0, 0, 2, 0, 0]) = some [0x81, 0x02] := by decide

/-! ### CLOSE, STATUS, RESET -/

/-- C4. -/
theorem test_close_partial : respAfter (onStream1 [0x00, 0x05, 0x41, 0x42] false [0x03]) = some [0x02, 0x00, 0x00, 0x00, 0x04, 0x01] ∧
    decAfter (onStream1 [0x00, 0x05, 0x41, 0x42] false [0x03]) = some { db := [], closed := true } := by decide

/-- C6. -/
theorem test_close_closed : respAfter (onStream1 [] true [0x03]) = some [0x81, 0x03] := by decide

/-- K2. -/
theorem test_status_partial : respAfter (onStream1 [0x00, 0x05, 0x41, 0x42] false [0x04])
    = some [0x00, 0x00, 0x00, 0x00, 0x02, 0x00, 0x04, 0x00, 0x05] := by decide

/-- K3. -/
theorem test_status_closed : respAfter (onStream1 [] true [0x04])
    = some [0x00, 0x00, 0x00, 0x00, 0x04, 0x00, 0x00, 0x00, 0x00] := by decide

/-- F10: COUNT 65536 needs bit 32. -/
theorem test_status_word_largest (got : List Byte) (h : got.length = 65534) :
    statusWord { db := 0xFF :: 0xFF :: got, closed := false } = 0x000000030000FFFF := by
  simp only [statusWord, List.length_cons, h, phase_two, expectedLength_two]
  decide

/-- K5. -/
theorem test_reset_partial : respAfter (onStream1 [0x12] false [0x05]) = some [0x02, 0x00, 0x00, 0x00, 0x01, 0x00] ∧
    decAfter (onStream1 [0x12] false [0x05]) = some { db := [], closed := false } := by decide

/-- K7. -/
theorem test_reset_closed : respAfter (onStream1 [] true [0x05]) = some [0x00] ∧
    decAfter (onStream1 [] true [0x05]) = some { db := [], closed := false } := by decide

/-! ### Commands and the step -/

/-- X4: the reserved byte alone is taken. -/
theorem test_reserved_step : respAfter (onStream1 [] false [0x06, 0x04]) = some [0x80, 0x06] := by decide

/-- X7: no step while the command is not complete; R162: none when nothing is pending. -/
theorem test_stuck_and_idle : step (onStream1 [] false [0x02, 0x00, 0x00, 0x00]) = .fault .stuck ∧ step State.reset = .fault .idle :=
  ⟨rfl, rfl⟩

/-- The table of channels takes a channel that is back at its reset value out. -/
theorem test_store_canonical : (onStream1 [] true []).setChan 1 Channel.initial = State.reset := by decide

/-- R71: a FEED response is split off the stream by its own fields (F15). -/
theorem test_read_response : readResponse 0x02 [0x00, 0x00, 0x00, 0x00, 0x02, 0x00, 0x01, 0x41, 0x00, 0x00, 0x81, 0x02]
    = some (.payloads [[0x41], []], [0x81, 0x02]) := by decide

/-- R105, F13: one byte at a time. -/
theorem test_serial : serialFeed [] [0x00, 0x02, 0x41, 0x42, 0x00, 0x00] = ([[0x41, 0x42], []], []) := by decide

/-- C5, F12: the cached realization, the length field split across chunks. -/
theorem test_cached : (CachedRegs.feed [0x02, 0x41] (.firstByte 0x00)) = ([], .payload 0x00 0x02 [0x41]) ∧
    (CachedRegs.feed [0x42] (.payload 0x00 0x02 [0x41])) = ([[0x41, 0x42]], .start) := by decide

/-! ### The assembler -/

/-- P1's first line, with a comment. -/
theorem test_assemble_P1 : assembleText ["ENCODE \"Hi\"  ; 01 00000002 4869".toList, "".toList, "STATUS".toList]
    = some [0x01, 0x00, 0x00, 0x00, 0x02, 0x48, 0x69, 0x04] := by decide

/-- A list, a `rep` and a concatenation. -/
theorem test_assemble_bytes : assembleText ["FEED [0x00, 0xff] ++ rep(2, 0x41)".toList]
    = some [0x02, 0x00, 0x00, 0x00, 0x04, 0x00, 0xFF, 0x41, 0x41] := by decide

/-- F13's first operations; and k = 0 is refused. -/
theorem test_assemble_split : assembleText ["FEEDSPLIT [0x00, 0x02, 0x41], 2".toList]
      = some [0x02, 0, 0, 0, 2, 0x00, 0x02, 0x02, 0, 0, 0, 1, 0x41] ∧
    assembleText ["FEEDSPLIT [], 0".toList] = none := by decide

/-! ### Witnesses: the hypotheses of the statements are met -/

theorem witness_DecodeOfEncodeIsTheOperation : (Instr.encode [0x41]).wf = true := by decide

theorem witness_EncodeOfDecodeIsTheBytes : decode [0x03, 0x04] = .instr .close [0x04] ∧ decode [0x07, 0x04] = .reserved 0x07 [0x04] := by
  decide

theorem witness_CommandSizesAndUnfinishedCommands : (Instr.feed [0x07]).wf = true ∧ 5 < (encode (.feed [0x07])).length := by decide

theorem witness_UnfinishedCommandWaitsForItsRest : (Instr.feed [0x07]).wf = true ∧ hasStream 1 = true ∧
    5 < (encode (.feed [0x07])).length ∧ ((onStream1 [] false [0x02, 0, 0, 0, 1]).chan 1).cmd = (encode (.feed [0x07])).take 5 := by
  decide

theorem witness_BigEndianFieldsReadBack : 65535 ≤ 65535 ∧ 4294967295 < 2 ^ 32 := by decide

theorem witness_StepRunsTheDecodedCommand : (onStream1 [] false [0x04]).pick = some 1 ∧
    decode ((onStream1 [] false [0x04]).chan 1).cmd = .instr .status [] := by decide

/-- Both ends of the reserved opcodes. -/
theorem witness_ReservedOpcodeAnswersIllegalCommand :
    ((onStream1 [] false [0x00]).pick = some 1 ∧ ((onStream1 [] false [0x00]).chan 1).cmd = 0x00 :: []) ∧
    ((onStream1 [] false [0x06]).pick = some 1 ∧ 0x06 ≤ (0x06 : Byte).toNat ∧ ((onStream1 [] false [0x06]).chan 1).cmd = 0x06 :: []) := by
  decide

theorem witness_StepAnswersExactlyWhenACommandIsReady : (∃ d, (onStream1 [] false [0x04]).ready d = true) ∧
    (∀ d, (onStream1 [] false [0x02]).ready d = false) ∧ ∀ d, State.reset.ready d = false := by
  refine ⟨⟨1, rfl⟩, fun d => ?_, fun d => ?_⟩
  · by_cases h : 1 = d
    · subst h; rfl
    · simp [State.ready, State.chan, onStream1, lookupChan, h, Channel.initial, decode, Decoded.complete]
  · simp [State.ready, Channel.initial, decode, Decoded.complete]

theorem witness_SettledOrderIsFollowed : (State.reset.withFetchWord 8 0x04).order = 1 :: [] ∧
    (State.reset.withFetchWord 8 0x04).ready 1 = true := by decide

/-- Both sides of the size check, at their boundary. -/
theorem witness_EncodeAnswersFrameOrPayloadTooLarge : hasStream State.reset.port = true ∧
    (zeros 65535).length ≤ 65535 ∧ 65535 < (zeros 65536).length := by
  refine ⟨rfl, ?_, ?_⟩ <;> simp [zeros_length]

theorem witness_OversizeResponseCarriesNoPayloadByte : hasStream State.reset.port = true ∧
    65535 < (zeros 65536).length ∧
    ((zeros 65535) ++ [0x01]).length = (zeros 65536).length := by
  refine ⟨rfl, ?_, ?_⟩ <;> simp [zeros_length]

theorem witness_EncodeIsPure : hasStream State.reset.port = true ∧ ∃ t, exec (.encode [0x41]) State.reset = .next t := ⟨rfl, _, rfl⟩

theorem witness_FrameOfAnAcceptedPayload : (zeros 65535).length ≤ 65535 ∧ ([] : List Byte).length ≤ 65535 ∧
    wireFrame [] = wireFrame [] := by
  refine ⟨?_, ?_, rfl⟩ <;> simp [zeros_length]

/-- Both cases of FEED; also of `ClosedDecoderRefusesUntilReset`, `ChunkSplitIsUnobservable`, `NoChunkIsAnErrorWhileOpen`. -/
theorem witness_FeedAppendsAndExtracts :
    (hasStream (onStream1 [] true []).port = true ∧ ((onStream1 [] true []).chan 1).dec.closed = true) ∧
    (hasStream (onStream1 [0x00] false []).port = true ∧ ((onStream1 [0x00] false []).chan 1).dec.closed = false) := by decide

theorem witness_ClosedDecoderRefusesUntilReset : hasStream (onStream1 [] true []).port = true ∧
    ((onStream1 [] true []).chan (onStream1 [] true []).port).dec.closed = true ∧ (zeros 65535).length ≤ 65535 := by
  refine ⟨rfl, rfl, ?_⟩; simp [zeros_length]

theorem witness_ChunkSplitIsUnobservable : ([[]] : List (List Byte)) ≠ [] ∧ hasStream (onStream1 [0x00] false []).port = true ∧
    ((onStream1 [0x00] false []).chan (onStream1 [0x00] false []).port).dec.closed = false := by decide

theorem witness_NoChunkIsAnErrorWhileOpen : hasStream (onStream1 [0xFF, 0xFF] false []).port = true ∧
    ((onStream1 [0xFF, 0xFF] false []).chan (onStream1 [0xFF, 0xFF] false []).port).dec.closed = false := by decide

/-- The three cases of CLOSE; the cases of RESET are the same three states. -/
theorem witness_CloseDiscardsAndReports :
    (hasStream (onStream1 [] true []).port = true ∧ ((onStream1 [] true []).chan 1).dec.closed = true) ∧
    (((onStream1 [] false [0x04]).chan 1).dec.closed = false ∧ ((onStream1 [] false [0x04]).chan 1).dec.db = []) ∧
    (((onStream1 [0x07] false []).chan 1).dec.closed = false ∧ ((onStream1 [0x07] false []).chan 1).dec.db ≠ []) := by decide

theorem witness_ResetMakesAFreshDecoderAndReports :
    (hasStream (onStream1 [0x07] false []).port = true ∧ ((onStream1 [0x07] false []).chan 1).dec.closed = false ∧
      ((onStream1 [0x07] false []).chan 1).dec.db ≠ []) ∧
    ((onStream1 [] true []).chan 1).dec.closed = true ∧ ((onStream1 [] false []).chan 1).dec.db = [] := by decide

/-- Also of `StatusHasNoSideEffect` and `ResetCommandReachesThePowerOnState`. -/
theorem witness_StatusAnswersTheStatusWord : hasStream (onStream1 [0x00, 0x05, 0x41] false []).port = true := rfl

theorem witness_StatusHasNoSideEffect : hasStream (onStream1 [0x00, 0x05, 0x41] false []).port = true := rfl

theorem witness_ResetCommandReachesThePowerOnState : hasStream (onStream1 [0x00, 0x05, 0x41] false []).port = true := rfl

theorem witness_StatusWordFields : Decoder.AtRest { db := [0x00, 0x05, 0x41, 0x42], closed := false } ∧
    Decoder.AtRest { db := [], closed := true } ∧ statusPhase (statusWord { db := [0x07], closed := false }) = false ∧
    Decoder.AtRest { db := [0x07], closed := false } := by
  refine ⟨⟨by decide, by decide⟩, ⟨by decide, by decide⟩, by decide, ⟨by decide, by decide⟩⟩

theorem witness_PhaseAndExpectedLength : ([0x00] : List Byte).length < 2 := by decide

/-- One byte short of the length and exactly the length. -/
theorem witness_ExtractRoundByRound : ([0x07] : List Byte).length < 2 ∧ ([0x41] : List Byte).length < be16 0x00 0x02 ∧
    be16 0x00 0x02 ≤ ([0x41, 0x42] : List Byte).length := by decide

theorem witness_ExtractIsTheOnlyFrameParse : (∀ p ∈ ([[0x41], []] : List (List Byte)), p.length ≤ 65535) ∧ Rest [0x00] ∧
    ([0x00, 0x01, 0x41, 0x00, 0x00, 0x00] : List Byte) = wireStream [[0x41], []] ++ [0x00] := by decide

theorem witness_EmptyChunkChangesNothing : hasStream (onStream1 [0x00, 0x01] false []).port = true ∧
    ((onStream1 [0x00, 0x01] false []).chan 1).dec.closed = false ∧ Rest ((onStream1 [0x00, 0x01] false []).chan 1).dec.db := by decide

theorem witness_ZeroLengthFrameCompletesAtOnce : Rest [0x00, 0x01] := by decide

theorem witness_AnyChunkingDeliversThePayloads : (∀ p ∈ ([[0x41], []] : List (List Byte)), p.length ≤ 65535) ∧ Rest [0x00] ∧
    ([[0x00, 0x01], [], [0x41, 0x00, 0x00, 0x00]] : List (List Byte)).flatten = wireStream [[0x41], []] ++ [0x00] ∧
    hasStream State.reset.port = true ∧ (State.reset.chan State.reset.port).dec = Decoder.initial := by decide

theorem witness_EncodeThenFeedReturnsThePayload : ([0x41, 0x42] : List Byte).length ≤ 65535 ∧ hasStream State.reset.port = true ∧
    (State.reset.chan State.reset.port).dec = Decoder.initial := by decide

theorem witness_ByteSerialFeedAgrees : Rest [0x00, 0x02, 0x41] := by decide

theorem witness_CachedLengthRealizationAgrees : Rest (CachedRegs.payload 0x00 0x02 [0x41]).db := by decide

theorem witness_RestingBufferBound : Rest [0x00, 0x02, 0x41] ∧ (Rest [0x07] ∧ phase [0x07] = .awaitingLength) ∧
    (zeros 65534).length = 65534 := by
  exact ⟨by decide, by decide, zeros_length _⟩

theorem witness_OperationTouchesOnlyItsInstance : (∃ t, exec (.feed [0x07]) State.reset = .next t) ∧
    (∃ t, exec .status State.reset = .next t) ∧ (∃ t, exec (.feed [0x07]) (onStream1 [] false [0x04]) = .next t) ∧
    (State.reset.chan State.reset.port).dec = ((onStream1 [] false [0x04]).chan (onStream1 [] false [0x04]).port).dec :=
  ⟨⟨_, rfl⟩, ⟨_, rfl⟩, ⟨_, rfl⟩, rfl⟩

theorem witness_InterleavingIsUnobservable : ([1, 2, 1] : List Nat).Perm [1, 1, 2] := by decide

theorem witness_InstanceSeesOnlyItsOwnCommands : (onStream1 [] false [0x04]).chan 1 = (onStream1 [] false [0x04]).chan 1 ∧
    ([1] : List Nat).count 1 = ([1] : List Nat).count 1 ∧ ∃ t, serveAll [1] (onStream1 [] false [0x04]) = .next t := ⟨rfl, rfl, _, rfl⟩

theorem witness_ReturnedResponsesNeverChange : ∃ t, serveAll [1, 1] (onStream1 [] false [0x04, 0x03]) = .next t := ⟨_, rfl⟩

theorem witness_CommandsRunInStreamOrder : (∀ i ∈ [Instr.feed [0x07], Instr.close], i.wf = true) ∧ hasStream 1 = true ∧
    ((onStream1 [] false [0x02, 0, 0, 0, 1, 0x07, 0x03, 0x01]).chan 1).cmd = [Instr.feed [0x07], Instr.close].flatMap encode ++ [0x01] := by
  decide

/-- A step that sets the closed flag and one that clears it. -/
theorem witness_OnlyCloseSetsAndOnlyResetClearsClosed :
    (∃ t, step (onStream1 [] false [0x03]) = .next t ∧ (t.chan 1).dec.closed = true) ∧
    ∃ t, step (onStream1 [] true [0x05]) = .next t ∧ (t.chan 1).dec.closed = false := ⟨⟨_, rfl, rfl⟩, ⟨_, rfl, rfl⟩⟩

theorem witness_OnlyItsOwnOperationsChangeABuffer : ∃ t, step (onStream1 [] false [0x02, 0, 0, 0, 1, 0x07]) = .next t ∧
    (t.chan 1).dec.db ≠ ((onStream1 [] false [0x02, 0, 0, 0, 1, 0x07]).chan 1).dec.db := ⟨_, rfl, by decide⟩

theorem witness_OneStepReturnsOneResponse : ∃ t, step (onStream1 [] false [0x04]) = .next t := ⟨_, rfl⟩

theorem witness_IncompleteInputOnlyAtTeardown : ∃ t, step (onStream1 [0x07] false [0x03]) = .next t ∧
    (t.chan 1).resp = ((onStream1 [0x07] false [0x03]).chan 1).resp ++ (Response.error (.incompleteInput 1 .awaitingLength)).bytes :=
  ⟨_, rfl, rfl⟩

/-- Two buffers of one length and one length field, with different payload bytes. -/
theorem witness_TeardownAndStatusHideTheBytes : hasStream (onStream1 [0x00, 0x02, 0x41] false []).port = true ∧
    ((onStream1 [0x00, 0x02, 0x41] false []).chan 1).dec.closed = ((onStream1 [0x00, 0x02, 0x42] false []).chan 1).dec.closed ∧
    ((onStream1 [0x00, 0x02, 0x41] false []).chan 1).dec.db.length = ((onStream1 [0x00, 0x02, 0x42] false []).chan 1).dec.db.length ∧
    expectedLength ((onStream1 [0x00, 0x02, 0x41] false []).chan 1).dec.db =
      expectedLength ((onStream1 [0x00, 0x02, 0x42] false []).chan 1).dec.db := by decide

theorem witness_ResponsesAreSelfDelimiting : (Instr.feed [0x42]).wf = true ∧ hasStream (onStream1 [0x00, 0x02, 0x41] false []).port = true ∧
    ((onStream1 [0x00, 0x02, 0x41] false []).chan 1).dec.AtRest := ⟨by decide, rfl, by decide, by decide⟩

/-- A state that meets the invariant, with a command pending: of `StepKeepsTheInvariant` and `HostEventKeepsTheInvariant`. -/
theorem witness_StepKeepsTheInvariant : (onStream1 [0x00, 0x02] false [0x04]).Inv ∧
    ∃ t, step (onStream1 [0x00, 0x02] false [0x04]) = .next t := by
  have key : ∀ d, d ≠ 1 → (onStream1 [0x00, 0x02] false [0x04]).chan d = Channel.initial := fun d h => by
    simp [State.chan, onStream1, lookupChan, Ne.symm h]
  refine ⟨{ chans_wf := by decide, streams_exist := fun d h => ?_, port_exists := rfl, at_rest := fun d => ?_ }, _, rfl⟩
  · by_cases hd : d = 1
    · rw [hd]; rfl
    · exact absurd (key d hd) h
  · by_cases hd : d = 1
    · rw [hd]; exact ⟨by decide, by decide⟩
    · rw [key d hd]; exact ⟨by decide, by decide⟩

theorem witness_HostEventKeepsTheInvariant : (onStream1 [0x00, 0x02] false [0x04]).Inv := witness_StepKeepsTheInvariant.1

theorem witness_ReachableBuffersAreAtRest : Reachable (applyHost (.send 1 [0x04]) State.reset) := .host _ _ .reset

/-- Number 0 is no stream. -/
theorem witness_OnlyExistingInstancesAreAddressed : hasStream ({ State.reset with port := 0 } : State).port = false := by decide

theorem witness_PseudoInstructionsExpand : (ByteExpr.list [0x41, 0x42]).value = some [0x41, 0x42] ∧ 1 ≤ 1 ∧
    ([0x41, 0x42] : List Byte).length ≤ Config.maxArg ∧ (0 : Nat) < (splitChunks [0x41, 0x42] 1).length ∧
    (ByteExpr.rep 65535 0x00).value = some (zeros 65535) ∧ (zeros 65535).length ≤ 65535 ∧
    (ByteExpr.rep 65536 0x00).value = some (zeros 65536) ∧ 65535 < (zeros 65536).length := by
  refine ⟨rfl, le_rfl, by decide, by decide, rfl, ?_, rfl, ?_⟩ <;> simp [zeros_length]

theorem witness_OperationLinesAssemble : (ByteExpr.text ['A', 'B']).value = some [0x41, 0x42] ∧
    ([0x41, 0x42] : List Byte).length ≤ Config.maxArg ∧ (∀ c ∈ ['A', 'B'], printable c = true) ∧
    (ByteExpr.rep 1 0x00).value = some [0x00] := by
  refine ⟨rfl, by decide, ?_, rfl⟩
  simp [printable]

end Sys2Proof.Tests
end

section
/-! SUPPORT. The statements on the byte fields and on the step that spec/00_scope.md R7 and R12 name, settled. -/

namespace Sys2Proof

/-- The eight bytes of a word, put together again, are the word (spec/30_encoding.md R73): neighbouring slices join to one slice. -/
theorem be64_extractLsb' (w : Word64) :
    be64 (w.extractLsb' 56 8) (w.extractLsb' 48 8) (w.extractLsb' 40 8) (w.extractLsb' 32 8)
      (w.extractLsb' 24 8) (w.extractLsb' 16 8) (w.extractLsb' 8 8) (w.extractLsb' 0 8) = w := by
  simp only [be64, BitVec.extractLsb'_append_extractLsb'_eq_extractLsb', BitVec.extractLsb'_eq_self]

/-- Settles O1, field by field: the 16-, the 32- and the 64-bit one, each by its lemma. -/
theorem bigEndianFieldsReadBack : Obligations.BigEndianFieldsReadBack := by
  unfold Obligations.BigEndianFieldsReadBack
  refine ⟨be16_hi8_lo8, fun h l => ⟨rfl, hi8_be16 h l, lo8_be16 h l⟩, fun v hv => ?_, be32Bytes_be32, fun w => ?_⟩
  · exact ⟨_, _, _, _, rfl, be32_of_be32Bytes v hv⟩
  · exact ⟨_, _, _, _, _, _, _, _, rfl, be64_extractLsb' w⟩

end Sys2Proof

namespace Sys2Proof.Machine

/-- A step serves the stream that is picked. -/
theorem step_of_pick (s : State) (d : Nat) (h : s.pick = some d) : step s = serve d s := by
  simp only [step, h]

/-- Serving a stream performs the operation decoded at its front, on the state with the command taken. -/
theorem serve_of_decode_instr (d : Nat) (s : State) (i : Instr) (rest : List Byte)
    (h : decode (s.chan d).cmd = .instr i rest) : serve d s = exec i (s.take d rest) := by
  simp only [serve, h]

/-- Settles O8: the picked stream is served, and the rules of `State.take` say what taking its command changes. -/
theorem stepRunsTheDecodedCommand : Obligations.StepRunsTheDecodedCommand := by
  unfold Obligations.StepRunsTheDecodedCommand
  intro s d i rest hpick hdecode
  have hstep : step s = exec i (s.take d rest) :=
    (step_of_pick s d hpick).trans (serve_of_decode_instr d s i rest hdecode)
  exact ⟨hstep, State.take_chan_self s d rest, State.take_chan_other s d rest,
    State.take_port s d rest, State.take_order s d rest, State.take_tick s d rest⟩

end Sys2Proof.Machine
end

section
/-! SUPPORT. EXTRACT of a buffer that grows, and the realization that caches the length field (spec/10_state.md R31), settled. -/

namespace Sys2Proof.Machine

/-- EXTRACT of a buffer with more bytes at its back: what the buffer alone emits, then what the bytes complete in the buffer it
leaves. -/
theorem extract_append (x y : List Byte) :
    extract (x ++ y) = ((extract x).1 ++ (extract ((extract x).2 ++ y)).1, (extract ((extract x).2 ++ y)).2) := by
  induction x using extract_induction with
  | short db hdb => simp [extract_short db hdb]
  | partialFrame h l body hb => simp [extract_two h l body, hb]
  | frame h l body hb ih =>
    have hxy : ¬ (body ++ y).length < be16 h l := by simp only [List.length_append]; omega
    rw [List.cons_append, List.cons_append, extract_two, if_neg hxy, List.take_append_of_le_length hb,
      List.drop_append_of_le_length hb, ih, extract_two h l body, if_neg (by omega)]
    rfl

/-- The PHASE register equals PHASE of the buffer the registers stand for (R31). -/
theorem CachedRegs.phase_eq (r : CachedRegs) : r.phase = Machine.phase r.db := by
  cases r with
  | start => rfl
  | firstByte h => rfl
  | payload h l got => exact (phase_two h l got).symm

/-- The cached length equals EXPECTED_LENGTH of the buffer the registers stand for (R31). -/
theorem CachedRegs.expected_eq (r : CachedRegs) : r.expected = expectedLength r.db := by
  cases r <;> rfl

/-- One byte taken: the registers emit and keep what EXTRACT emits and leaves of the buffer with that byte. -/
theorem CachedRegs.take_eq_extract (b : Byte) (r : CachedRegs) (hr : Rest r.db) :
    extract (r.db ++ [b]) = ((r.take b).1.toList, (r.take b).2.db) := by
  cases r with
  | start => exact extract_short [b] (by simp)
  | firstByte h =>
    have hext := extract_two h b []
    by_cases hz : be16 h b = 0
    · simpa [CachedRegs.take, CachedRegs.db, hz, extract_short] using hext
    · simpa [CachedRegs.take, CachedRegs.db, hz, Nat.pos_of_ne_zero hz] using hext
  | payload h l got =>
    have hlt : got.length < be16 h l := (rest_two h l got).mp hr
    have hext := extract_two h l (got ++ [b])
    by_cases hfull : got.length + 1 = be16 h l
    · simpa [CachedRegs.take, CachedRegs.db, ← hfull, List.take_of_length_le, extract_short] using hext
    · have hmore : got.length + 1 < be16 h l := by omega
      simpa [CachedRegs.take, CachedRegs.db, hfull, hmore] using hext

/-- A chunk taken byte by byte: the registers emit and keep what EXTRACT emits and leaves of the buffer with that chunk. -/
theorem CachedRegs.feed_eq_extract (c : List Byte) (r : CachedRegs) (hr : Rest r.db) :
    extract (r.db ++ c) = ((CachedRegs.feed c r).1, (CachedRegs.feed c r).2.db) := by
  induction c generalizing r with
  | nil => rw [List.append_nil]; exact extract_of_rest r.db hr
  | cons b bs ih =>
    have hbyte := CachedRegs.take_eq_extract b r hr
    have hrest : Rest (r.take b).2.db := by simpa [hbyte] using extract_rest (r.db ++ [b])
    rw [List.append_cons, extract_append, hbyte, ih _ hrest]
    rfl

/-- Settles O32: the registers follow EXTRACT byte by byte, and each register is read off the buffer they stand for. -/
theorem cachedLengthRealizationAgrees : Obligations.CachedLengthRealizationAgrees := by
  unfold Obligations.CachedLengthRealizationAgrees
  intro c r hr
  rw [CachedRegs.feed_eq_extract c r hr]
  exact ⟨rfl, rfl, CachedRegs.phase_eq _, CachedRegs.expected_eq _⟩

end Sys2Proof.Machine
end

section
/-! SUPPORT. What taking one command does to the channel of its stream, and the statements on what an operation and a run of commands
reach of each channel (spec/10_state.md R32, R33), settled. -/

namespace Sys2Proof.Machine

/-- A channel after the command at the front of its command stream is taken and answered; a channel that holds no complete command
stays as it is. -/
def Channel.served (c : Channel) : Channel :=
  match frontOp c.cmd with
  | none => c
  | some (op, rest) => { dec := (op c.dec).1, cmd := rest, resp := c.resp ++ (op c.dec).2.bytes }

theorem Channel.served_of_frontOp (c : Channel) (op : Decoder → Decoder × Response) (rest : List Byte)
    (h : frontOp c.cmd = some (op, rest)) :
    c.served = { dec := (op c.dec).1, cmd := rest, resp := c.resp ++ (op c.dec).2.bytes } := by
  simp only [Channel.served, h]

/-- A command taken only adds to the response stream. -/
theorem Channel.resp_isPrefix_served (c : Channel) : c.resp <+: c.served.resp := by
  unfold Channel.served
  split
  · exact List.prefix_rfl
  · exact List.prefix_append _ _

theorem Channel.resp_isPrefix_iterate_served (n : Nat) (c : Channel) : c.resp <+: (Channel.served^[n] c).resp := by
  induction n generalizing c with
  | zero => exact List.prefix_rfl
  | succ n ih => exact c.resp_isPrefix_served.trans (ih c.served)

/-- What serving a stream leaves in each channel. -/
theorem serve_next_chan (d : Nat) (s t : State) (h : serve d s = .next t) :
    t.chan d = (s.chan d).served ∧ ∀ e, e ≠ d → t.chan e = s.chan e := by
  obtain ⟨-, op, rest, hf, rfl⟩ := serve_next d s t h
  exact ⟨(served_chan_self ..).trans (Channel.served_of_frontOp _ op rest hf).symm,
    fun e he => served_chan_other s d rest _ _ e he⟩

/-- A run of commands that answers a next state answers one after its first command. -/
theorem serveAll_cons_next (d : Nat) (ds : List Nat) (s t : State) (h : serveAll (d :: ds) s = .next t) :
    ∃ u, serve d s = .next u ∧ serveAll ds u = .next t := by
  unfold serveAll at h
  split at h
  · next u hu => exact ⟨u, hu, h⟩
  · cases h
  · cases h

/-- A run of commands serves each channel as often as its stream is named, whatever stands between. -/
theorem serveAll_next_chan (ds : List Nat) (s t : State) (h : serveAll ds s = .next t) (d : Nat) :
    t.chan d = Channel.served^[ds.count d] (s.chan d) := by
  induction ds generalizing s with
  | nil => cases h; rfl
  | cons e es ih =>
    obtain ⟨u, hserve, hrun⟩ := serveAll_cons_next e es s t h
    obtain ⟨hself, hother⟩ := serve_next_chan e s u hserve
    rw [ih u hrun]
    by_cases hde : d = e
    · subst hde
      rw [List.count_cons_self, Function.iterate_succ_apply, hself]
    · rw [List.count_cons_of_ne (Ne.symm hde), hother d hde]

/-- Settles O36: both runs serve the channel equally often, from the same channel. -/
theorem instanceSeesOnlyItsOwnCommands : Obligations.InstanceSeesOnlyItsOwnCommands := by
  unfold Obligations.InstanceSeesOnlyItsOwnCommands
  intro d ds es s t s' t' hchan hcount hs ht
  rw [serveAll_next_chan ds s s' hs d, serveAll_next_chan es t t' ht d, hchan, hcount]

/-- Settles O37: each time a channel is served its response stream grows at the back. -/
theorem returnedResponsesNeverChange : Obligations.ReturnedResponsesNeverChange := by
  unfold Obligations.ReturnedResponsesNeverChange
  intro ds s t h d
  rw [serveAll_next_chan ds s t h d]
  exact Channel.resp_isPrefix_iterate_served _ _

/-- ENCODE and STATUS write no decoder (R26). -/
theorem Instr.op_dec_of_encode_or_status (i : Instr) (d : Decoder) (h : (∃ p, i = .encode p) ∨ i = .status) :
    (Instr.op i d).1 = d := by
  rcases h with ⟨p, rfl⟩ | rfl <;> rfl

/-- Settles O34: `exec` applies the function of its operation to the addressed decoder and appends the response; nothing else of the
state enters or is written. -/
theorem operationTouchesOnlyItsInstance : Obligations.OperationTouchesOnlyItsInstance := by
  unfold Obligations.OperationTouchesOnlyItsInstance
  refine ⟨fun i s t h => ?_, fun i s s' t t' h h' hdec => ?_⟩
  · obtain ⟨-, rfl⟩ := exec_next i s t h
    refine ⟨State.answer_chan_other s _ _, ?_, rfl, rfl, rfl, ⟨(Instr.op i (s.chan s.port).dec).2, ?_⟩, fun hi => ?_⟩ <;>
      rw [State.answer_chan_port]
    exact Instr.op_dec_of_encode_or_status i _ hi
  · obtain ⟨-, -, hchan⟩ := exec_next_chan i s t h
    obtain ⟨-, -, hchan'⟩ := exec_next_chan i s' t' h'
    rw [hchan, hchan', hdec]
    exact ⟨rfl, _, rfl, rfl⟩

end Sys2Proof.Machine
end

section
/-! SUPPORT. What each operation leaves of the decoder, and the invariant between steps (spec/10_state.md R24, R29, R30, R34),
settled. -/

namespace Sys2Proof.Machine

/-- The decoder FEED leaves: an open one with what EXTRACT leaves of its buffer, a closed one as it is (R95). -/
theorem feedOp_dec (c : List Byte) (d : Decoder) :
    (feedOp c d).1 = if d.closed then d else { d with db := (extract (d.db ++ c)).2 } := by
  unfold feedOp
  split <;> rfl

/-- CLOSE leaves a closed decoder; an open one's buffer is emptied (R103). -/
theorem closeOp_dec (d : Decoder) : (closeOp d).1 = if d.closed then d else { db := [], closed := true } := by
  unfold closeOp
  split
  · rfl
  · dsimp only; split <;> rfl

/-- RESET leaves a fresh decoder (R121). -/
theorem resetOp_dec (d : Decoder) : (resetOp d).1 = Decoder.initial := by
  unfold resetOp
  split <;> rfl

theorem feedOp_closed (c : List Byte) (d : Decoder) : (feedOp c d).1.closed = d.closed := by
  rw [feedOp_dec]
  split <;> rfl

theorem closeOp_closed (d : Decoder) : (closeOp d).1.closed = true := by
  rw [closeOp_dec]
  split
  · assumption
  · rfl

theorem resetOp_closed (d : Decoder) : (resetOp d).1.closed = false := by
  rw [resetOp_dec]
  rfl

/-- The closed flag after an operation: CLOSE sets it, RESET clears it, the others leave it (R29). -/
theorem Instr.op_closed (i : Instr) (d : Decoder) :
    (Instr.op i d).1.closed = if i = .close then true else if i = .reset then false else d.closed := by
  cases i with
  | encode p => rfl
  | feed c => exact feedOp_closed c d
  | close => exact closeOp_closed d
  | status => rfl
  | reset => exact resetOp_closed d

/-- Only CLOSE sets the closed flag (R29). -/
theorem Instr.eq_close_of_op_closed (i : Instr) (d : Decoder) (hopen : d.closed = false)
    (hclosed : (Instr.op i d).1.closed = true) : i = .close := by
  by_contra hne
  simp [Instr.op_closed, hne, hopen] at hclosed

/-- Only RESET clears the closed flag (R29). -/
theorem Instr.eq_reset_of_op_open (i : Instr) (d : Decoder) (hclosed : d.closed = true)
    (hopen : (Instr.op i d).1.closed = false) : i = .reset := by
  by_contra hne
  simp [Instr.op_closed, hne, hclosed] at hopen

/-- What stands behind the operation at the front of a stream: a command, or a reserved opcode, which leaves the decoder. -/
theorem frontOp_some (cmd rest : List Byte) (op : Decoder → Decoder × Response) (h : frontOp cmd = some (op, rest)) :
    (∃ i, decode cmd = .instr i rest ∧ op = Instr.op i) ∨
    ∃ opc, decode cmd = .reserved opc rest ∧ op = fun d => raise d (.illegalCommand opc) := by
  unfold frontOp at h
  split at h
  · next i r hd => cases h; exact .inl ⟨i, hd, rfl⟩
  · next opc r hd => cases h; exact .inr ⟨opc, hd, rfl⟩
  · cases h

/-- What a step that changes the decoder of a channel did: it performed the command at the front of that channel's stream. -/
theorem step_next_dec (s t : State) (h : step s = .next t) (e : Nat) :
    (t.chan e).dec = (s.chan e).dec ∨
    ∃ i rest, decode (s.chan e).cmd = .instr i rest ∧ (t.chan e).dec = (Instr.op i (s.chan e).dec).1 := by
  obtain ⟨d, op, rest, -, -, hf, rfl⟩ := step_next s t h
  by_cases he : e = d
  · subst he
    rw [served_chan_self]
    rcases frontOp_some _ _ _ hf with ⟨i, hi, rfl⟩ | ⟨opc, -, rfl⟩
    · exact .inr ⟨i, rest, hi, rfl⟩
    · exact .inl rfl
  · exact .inl (by rw [served_chan_other _ _ _ _ _ _ he])

/-- Settles O39: a step that changes the flag performed a command at that decoder, which is CLOSE or RESET by the flag it left. -/
theorem onlyCloseSetsAndOnlyResetClearsClosed : Obligations.OnlyCloseSetsAndOnlyResetClearsClosed := by
  unfold Obligations.OnlyCloseSetsAndOnlyResetClearsClosed
  intro s t d h
  rcases step_next_dec s t h d with hsame | ⟨i, rest, hdecode, hdec⟩
  · rw [hsame]
    exact ⟨fun h0 h1 => absurd (h0.symm.trans h1) Bool.false_ne_true, fun h1 h0 => absurd (h0.symm.trans h1) Bool.false_ne_true⟩
  · rw [hdec, hdecode]
    exact ⟨fun h0 h1 => ⟨rest, by rw [Instr.eq_close_of_op_closed i _ h0 h1]⟩,
      fun h1 h0 => ⟨rest, by rw [Instr.eq_reset_of_op_open i _ h1 h0]⟩⟩

/-! ### At rest -/

theorem Decoder.initial_atRest : Decoder.initial.AtRest := ⟨rest_of_short _ (by decide), fun _ => rfl⟩

/-- Every operation leaves a decoder at rest (R24): FEED by EXTRACT, CLOSE and RESET with an empty buffer. -/
theorem Instr.op_atRest (i : Instr) (d : Decoder) (h : d.AtRest) : (Instr.op i d).1.AtRest := by
  cases i with
  | encode p => exact h
  | status => exact h
  | feed c =>
    change (feedOp c d).1.AtRest
    rw [feedOp_dec]
    split
    · exact h
    · next hopen => exact ⟨extract_rest _, fun hclosed => absurd hclosed hopen⟩
  | close =>
    change (closeOp d).1.AtRest
    rw [closeOp_dec]
    split
    · exact h
    · exact ⟨rest_of_short _ (by decide), fun _ => rfl⟩
  | reset =>
    change (resetOp d).1.AtRest
    rw [resetOp_dec]
    exact Decoder.initial_atRest

/-- The operation at the front of a stream leaves a decoder at rest. -/
theorem frontOp_atRest (cmd rest : List Byte) (op : Decoder → Decoder × Response) (hf : frontOp cmd = some (op, rest))
    (d : Decoder) (h : d.AtRest) : (op d).1.AtRest := by
  rcases frontOp_some cmd rest op hf with ⟨i, -, rfl⟩ | ⟨opc, -, rfl⟩
  · exact Instr.op_atRest i d h
  · exact h

/-- A Decode Buffer at rest has at most 65536 bytes (R25). -/
theorem rest_length_le (db : List Byte) (h : Rest db) : db.length ≤ 65536 := by
  match db, h with
  | [], _ => simp
  | [b], _ => simp
  | a :: b :: body, h =>
    have hbody : body.length < be16 a b := (rest_two a b body).mp h
    have hmax : be16 a b ≤ 65535 := be16_le a b
    simp only [List.length_cons]
    omega

/-- AwaitingLength means that no whole length field is buffered (R22). -/
theorem phase_eq_awaitingLength_iff (db : List Byte) : phase db = .awaitingLength ↔ db.length < 2 := by
  simp [phase, Config.lenFieldBytes]

/-- Settles O33: the length field bounds what is buffered at rest, and 0xFF 0xFF with 65534 bytes meets the bound. -/
theorem restingBufferBound : Obligations.RestingBufferBound := by
  unfold Obligations.RestingBufferBound
  refine ⟨fun db h => ⟨rest_length_le db h, fun hp => ?_⟩, fun got hgot => ⟨?_, ?_⟩⟩
  · exact Nat.le_of_lt_succ ((phase_eq_awaitingLength_iff db).mp hp)
  · rw [rest_two, hgot]; decide
  · rw [List.length_cons, List.length_cons, hgot]

/-! ### The invariant -/

/-- Settles O49: the table is empty and every channel reads as its reset value. -/
theorem resetStateMeetsTheInvariant : Obligations.ResetStateMeetsTheInvariant :=
  { chans_wf := rfl
    streams_exist := fun d h => absurd (State.reset_chan d) h
    port_exists := hasStream_one
    at_rest := fun _ => Decoder.initial_atRest }

/-- The invariant speaks of the channels and the port alone. -/
theorem State.Inv.of_chans_eq {s t : State} (h : s.Inv) (hchans : t.chans = s.chans) (hport : hasStream t.port = true) :
    t.Inv := by
  have hchan : ∀ d, t.chan d = s.chan d := fun d => by rw [State.chan, hchans]; rfl
  exact { chans_wf := by rw [hchans]; exact h.chans_wf
          streams_exist := fun d hd => h.streams_exist d (by rwa [← hchan])
          port_exists := hport
          at_rest := fun d => by rw [hchan]; exact h.at_rest d }

/-- Writing the channel of an existing stream keeps the invariant if the decoder written is at rest. -/
theorem State.Inv.setChan {s : State} (h : s.Inv) {d : Nat} {c : Channel} (hd : hasStream d = true) (hc : c.dec.AtRest) :
    (s.setChan d c).Inv := by
  refine { chans_wf := chansWf_storeChan _ _ _ h.chans_wf, streams_exist := fun e he => ?_, port_exists := h.port_exists,
           at_rest := fun e => ?_ } <;> by_cases hed : e = d
  · rwa [hed]
  · exact h.streams_exist e (by rwa [← State.setChan_chan_other s d c e hed])
  · rw [hed, State.setChan_chan_self]; exact hc
  · rw [State.setChan_chan_other s d c e hed]; exact h.at_rest e

theorem State.Inv.take {s : State} (h : s.Inv) {d : Nat} (hd : hasStream d = true) (rest : List Byte) :
    (s.take d rest).Inv :=
  (h.setChan hd (c := { s.chan d with cmd := rest }) (h.at_rest d)).of_chans_eq rfl hd

theorem State.Inv.answer {s : State} (h : s.Inv) {d : Decoder} (hd : d.AtRest) (r : Response) : (s.answer d r).Inv :=
  h.setChan h.port_exists hd

/-- Settles O50: a step takes a command of an existing stream and answers with what its operation leaves of a decoder at rest. -/
theorem stepKeepsTheInvariant : Obligations.StepKeepsTheInvariant := by
  unfold Obligations.StepKeepsTheInvariant
  intro s t h hstep
  obtain ⟨d, op, rest, -, hd, hf, rfl⟩ := step_next s t hstep
  exact (h.take hd rest).answer (frontOp_atRest _ _ _ hf _ (h.at_rest d)) _

/-- A write to a stream only if the block has it keeps the invariant if it leaves the decoder. -/
theorem State.Inv.setChan_if_hasStream {s : State} (h : s.Inv) {d : Nat} {c : Channel} (hc : c.dec = (s.chan d).dec) :
    (if hasStream d then s.setChan d c else s).Inv := by
  split
  · next hd => exact h.setChan hd (hc ▸ h.at_rest d)
  · exact h

/-- A host event writes no decoder but at power-on reset, and no stream the block does not have. -/
theorem State.Inv.applyHost {s : State} (h : s.Inv) (e : HostEvent) : (applyHost e s).Inv := by
  cases e with
  | send d bytes => exact h.setChan_if_hasStream rfl
  | collect d => exact h.setChan_if_hasStream rfl
  | settle ds => exact h.of_chans_eq rfl h.port_exists
  | powerOn => exact resetStateMeetsTheInvariant

/-- Every state the block and its host can reach meets the invariant. -/
theorem Reachable.inv {s : State} (h : Reachable s) : s.Inv := by
  induction h with
  | reset => exact resetStateMeetsTheInvariant
  | step s t _ hstep ih => exact stepKeepsTheInvariant s t ih hstep
  | host s e _ ih => exact ih.applyHost e

/-- Settles O52: a reachable state meets the invariant, and a buffer at rest is within its bound. -/
theorem reachableBuffersAreAtRest : Obligations.ReachableBuffersAreAtRest := by
  unfold Obligations.ReachableBuffersAreAtRest
  intro s d h
  obtain ⟨hrest, hclosed⟩ := h.inv.at_rest d
  exact ⟨hrest, rest_length_le _ hrest, hclosed⟩

/-- Settles O47: power-on reset is the reset state, where every channel is at its reset value. -/
theorem powerOnResetLeavesInitialState : Obligations.PowerOnResetLeavesInitialState := by
  unfold Obligations.PowerOnResetLeavesInitialState
  intro s d
  rw [State.reset_chan]
  exact ⟨State.reset_chan d, rfl, rfl, rfl, rfl, by decide, rfl, rfl⟩

end Sys2Proof.Machine
end

section
/-! SUPPORT. PHASE, EXPECTED_LENGTH and the STATUS word as functions of the decoder, and what STATUS, CLOSE and RESET show of it
(spec/10_state.md R22, R23, R30, R35), settled. -/

namespace Sys2Proof.Machine

theorem expectedLength_of_short (db : List Byte) (h : db.length < 2) : expectedLength db = none := by
  match db, h with
  | [], _ => rfl
  | [b], _ => rfl

theorem expectedLength_getD_le (db : List Byte) : (expectedLength db).getD 0 ≤ 65535 := by
  match db with
  | [] => simp
  | [b] => simp
  | h :: l :: body => exact be16_le h l

/-- Settles O23: under 2 bytes there is no length field; from 2 bytes on it is the first two. -/
theorem phaseAndExpectedLength : Obligations.PhaseAndExpectedLength := by
  unfold Obligations.PhaseAndExpectedLength
  refine ⟨fun db h => ⟨(phase_eq_awaitingLength_iff db).mpr h, expectedLength_of_short db h⟩, fun h l db => ?_, rfl, rfl⟩
  exact ⟨phase_two h l db, expectedLength_two h l db, be16_le h l⟩

/-! ### The fields of the STATUS word -/

theorem statusExpLen_statusWord (d : Decoder) :
    statusExpLen (statusWord d) = BitVec.ofNat 16 ((expectedLength d.db).getD 0) := by
  apply BitVec.eq_of_getLsbD_eq
  intro i hi
  simp [statusExpLen, statusWord_getLsbD, hi]

theorem statusCount_statusWord (d : Decoder) : statusCount (statusWord d) = BitVec.ofNat 17 d.db.length := by
  apply BitVec.eq_of_getLsbD_eq
  intro i hi
  simp [statusCount, statusWord_getLsbD, hi, show 16 + i < 33 by omega]

theorem statusPhase_statusWord (d : Decoder) : statusPhase (statusWord d) = (phase d.db).bit :=
  statusWord_getLsbD d 33

theorem statusClosed_statusWord (d : Decoder) : statusClosed (statusWord d) = d.closed :=
  statusWord_getLsbD d 34

/-- Bits 63 to 35 of the STATUS word are reserved zeros. -/
theorem statusWord_reserved (d : Decoder) : (statusWord d).extractLsb' 35 29 = 0 := by
  apply BitVec.eq_of_getLsbD_eq
  intro i hi
  have h16 : ¬ 35 + i < 16 := by omega
  have h33 : ¬ 35 + i < 33 := by omega
  have hne33 : ¬ 35 + i = 33 := by omega
  have hne34 : ¬ 35 + i = 34 := by omega
  simp [BitVec.getLsbD_extractLsb', statusWord_getLsbD, h16, h33, hne33, hne34]

/-- The STATUS word of a closed decoder with an empty buffer (R120). -/
theorem statusWord_closed_empty : statusWord { db := [], closed := true } = 0x0000000400000000 := by decide

theorem Phase.bit_eq_false_iff (p : Phase) : p.bit = false ↔ p = .awaitingLength := by
  cases p <;> decide

/-- Settles O21, field by field; at rest every count fits its field, and without a whole length field there is at most one byte. -/
theorem statusWordFields : Obligations.StatusWordFields := by
  unfold Obligations.StatusWordFields
  intro d ⟨hrest, hclosed⟩
  have hexp : (expectedLength d.db).getD 0 < 2 ^ 16 := Nat.lt_succ_of_le (expectedLength_getD_le d.db)
  have hcount : d.db.length < 2 ^ 17 := Nat.lt_of_le_of_lt (rest_length_le d.db hrest) (by decide)
  have hcountField : (statusCount (statusWord d)).toNat = d.db.length := by
    rw [statusCount_statusWord, BitVec.toNat_ofNat, Nat.mod_eq_of_lt hcount]
  refine ⟨?_, hcountField, statusPhase_statusWord d, statusClosed_statusWord d, statusWord_reserved d, fun hc => ?_,
    fun hp => ?_⟩
  · rw [statusExpLen_statusWord, BitVec.toNat_ofNat, Nat.mod_eq_of_lt hexp]
  · obtain ⟨db, closed⟩ := d
    obtain rfl : closed = true := hc
    obtain rfl : db = [] := hclosed rfl
    exact statusWord_closed_empty
  · rw [statusPhase_statusWord, Phase.bit_eq_false_iff, phase_eq_awaitingLength_iff] at hp
    rw [hcountField, statusExpLen_statusWord, expectedLength_of_short d.db hp]
    exact ⟨Nat.le_of_lt_succ hp, rfl⟩

/-! ### What STATUS, CLOSE and RESET show -/

/-- PHASE depends on the buffer's length alone. -/
theorem phase_congr (db db' : List Byte) (h : db.length = db'.length) : phase db = phase db' := by
  simp only [phase, h]

/-- CLOSE, STATUS and RESET answer by the closed flag, the buffer's length and its expected length (R35). -/
theorem Instr.op_response_congr (i : Instr) (hi : i = .close ∨ i = .status ∨ i = .reset) (d d' : Decoder)
    (hclosed : d.closed = d'.closed) (hlen : d.db.length = d'.db.length)
    (hexp : expectedLength d.db = expectedLength d'.db) : (Instr.op i d).2 = (Instr.op i d').2 := by
  have hphase : phase d.db = phase d'.db := phase_congr d.db d'.db hlen
  rcases hi with rfl | rfl | rfl
  · simp only [Instr.op, closeOp, raise, respond, hclosed, hlen, hphase]
    split_ifs <;> rfl
  · simp only [Instr.op, statusOp, respond, statusWord, hclosed, hlen, hphase, hexp]
  · simp only [Instr.op, resetOp, raise, respond, hclosed, hlen, hphase]

/-- Settles O44: each of the two states is answered, with the response its decoder's flag, length and expected length give. -/
theorem teardownAndStatusHideTheBytes : Obligations.TeardownAndStatusHideTheBytes := by
  unfold Obligations.TeardownAndStatusHideTheBytes
  intro i s s' hi hs hs' hclosed hlen hexp
  obtain ⟨t, ht, -, -, hchan⟩ := exec_answers i s hs
  obtain ⟨t', ht', -, -, hchan'⟩ := exec_answers i s' hs'
  refine ⟨t, t', (Instr.op i (s.chan s.port).dec).2.bytes, ht, ht', by rw [hchan], ?_⟩
  rw [hchan', Instr.op_response_congr i hi _ _ hclosed hlen hexp]

end Sys2Proof.Machine
end

section
/-! SUPPORT. Operations performed one after another at one decoder, and the statements on what a run of them, and a step, reach
(spec/20_memory.md R40, R48, R49), settled. -/

namespace Sys2Proof.Machine

/-- What operations performed one after another leave of a decoder, and their responses in order. -/
def Instr.opAll : List Instr → Decoder → Decoder × List Response
  | [], d => (d, [])
  | i :: is, d =>
    let r := Instr.op i d
    let q := Instr.opAll is r.1
    (q.1, r.2 :: q.2)

/-- A run of operations at an existing port answers, and what it leaves in each channel. -/
theorem execAll_answers (is : List Instr) (s : State) (h : hasStream s.port = true) :
    ∃ t, execAll is s = .next t ∧ (∀ e, e ≠ s.port → t.chan e = s.chan e) ∧
    t.chan s.port = { dec := (Instr.opAll is (s.chan s.port).dec).1, cmd := (s.chan s.port).cmd,
                      resp := (s.chan s.port).resp ++ (Instr.opAll is (s.chan s.port).dec).2.flatMap Response.bytes } := by
  induction is generalizing s with
  | nil => exact ⟨s, rfl, fun _ _ => rfl, by simp [Instr.opAll]⟩
  | cons i is ih =>
    obtain ⟨u, hu, hport, hother, hself⟩ := exec_answers i s h
    obtain ⟨t, ht, hother', hself'⟩ := ih u (by rwa [hport])
    rw [hport] at hother' hself'
    refine ⟨t, by simp only [execAll, hu, ht], fun e he => (hother' e he).trans (hother e he), ?_⟩
    rw [hself', hself]
    simp [Instr.opAll]

/-- STATUS operations in a row leave the decoder and give one word each time (R49). -/
theorem Instr.opAll_replicate_status (n : Nat) (d : Decoder) :
    Instr.opAll (List.replicate n .status) d = (d, List.replicate n (.status (statusWord d))) := by
  induction n with
  | zero => rfl
  | succ n ih =>
    have hop : Instr.op .status d = (d, .status (statusWord d)) := rfl
    simp only [List.replicate_succ, Instr.opAll, hop, ih]

/-- Settles O22: the run answers, and STATUS leaves the decoder it reads each word from. -/
theorem statusHasNoSideEffect : Obligations.StatusHasNoSideEffect := by
  unfold Obligations.StatusHasNoSideEffect
  intro n s hs
  obtain ⟨t, ht, hother, hself⟩ := execAll_answers (List.replicate n .status) s hs
  rw [Instr.opAll_replicate_status] at hself
  refine ⟨t, ht, fun d => ?_, hother, ?_⟩
  · by_cases hd : d = s.port
    · rw [hd, hself]
    · rw [hother d hd]
  · rw [hself, List.flatMap, List.map_replicate]
    rfl

/-! ### What a step reaches -/

/-- Only FEED of an open decoder, CLOSE and RESET write a Decode Buffer (R40). -/
theorem Instr.of_op_changes_db (i : Instr) (d : Decoder) (h : (Instr.op i d).1.db ≠ d.db) :
    (∃ c, i = .feed c ∧ d.closed = false) ∨ i = .close ∨ i = .reset := by
  cases i with
  | encode p => exact absurd rfl h
  | status => exact absurd rfl h
  | close => exact .inr (.inl rfl)
  | reset => exact .inr (.inr rfl)
  | feed c =>
    refine .inl ⟨c, rfl, Bool.eq_false_iff.mpr fun hclosed => h ?_⟩
    simp only [Instr.op, feedOp_dec, hclosed, if_true]

/-- Settles O40: a step that changes a buffer performed the command at the front of its own stream, which is one of the three. -/
theorem onlyItsOwnOperationsChangeABuffer : Obligations.OnlyItsOwnOperationsChangeABuffer := by
  unfold Obligations.OnlyItsOwnOperationsChangeABuffer
  intro s t d h hdb
  rcases step_next_dec s t h d with hsame | ⟨i, rest, hdecode, hdec⟩
  · exact absurd (congrArg Decoder.db hsame) hdb
  · rw [hdec] at hdb
    rcases Instr.of_op_changes_db i _ hdb with ⟨c, rfl, hopen⟩ | rfl | rfl
    · exact .inl ⟨c, rest, hdecode, hopen⟩
    · exact .inr (.inl ⟨rest, hdecode⟩)
    · exact .inr (.inr ⟨rest, hdecode⟩)

/-- The five status codes (R72). -/
theorem Response.code_mem (r : Response) : r.code ∈ ([0x00, 0x01, 0x02, 0x80, 0x81] : List Byte) := by
  cases r with
  | error e => cases e <;> simp [Response.code, CodecError.code]
  | _ => simp [Response.code]

/-- Settles O41: the step answers the command it takes on that command's stream. -/
theorem oneStepReturnsOneResponse : Obligations.OneStepReturnsOneResponse := by
  unfold Obligations.OneStepReturnsOneResponse
  intro s t h
  obtain ⟨d, op, rest, hpick, -, -, rfl⟩ := step_next s t h
  exact ⟨d, (op (s.chan d).dec).2, hpick, by rw [served_chan_self], Response.code_mem _,
    fun e he => served_chan_other s d rest _ _ e he⟩

/-- The first stream of the settled order is picked if it is ready. -/
theorem pick_of_order (s : State) (d : Nat) (ds : List Nat) (horder : s.order = d :: ds) (hready : s.ready d = true) :
    s.pick = some d := by
  simp only [State.pick, horder, hready, if_true]

/-- Settles O11: the settled stream is picked, and taking its command uses its entry of the order up. -/
theorem settledOrderIsFollowed : Obligations.SettledOrderIsFollowed := by
  unfold Obligations.SettledOrderIsFollowed
  intro s d ds horder hready
  have hstep : step s = serve d s := step_of_pick s d (pick_of_order s d ds horder hready)
  obtain ⟨op, rest, -, hserve⟩ := serve_of_ready d s hready
  exact ⟨hstep, _, hstep.trans hserve, by simp [horder]⟩

end Sys2Proof.Machine
end

section
/-! SUPPORT. Commands of several streams: when a run of them answers, whatever stands between (spec/20_memory.md R53), settled. -/

namespace Sys2Proof.Machine

/-- Every stream a run names exists and holds a complete command each time the run comes to it. -/
def State.canServe (s : State) (ds : List Nat) : Prop :=
  ∀ d n, n < ds.count d → hasStream d = true ∧ (decode (Channel.served^[n] (s.chan d)).cmd).complete = true

/-- Which commands can be served is told by how often each stream is named. -/
theorem State.canServe_perm (s : State) {ds es : List Nat} (h : ds.Perm es) : s.canServe ds ↔ s.canServe es := by
  simp only [State.canServe, h.count_eq]

/-- A stream whose command is served is ready. -/
theorem ready_of_serve_next (d : Nat) (s t : State) (h : serve d s = .next t) : s.ready d = true := by
  obtain ⟨hd, op, rest, hf, -⟩ := serve_next d s t h
  exact Bool.and_eq_true_iff.mpr ⟨hd, (complete_iff_frontOp _).mpr ⟨op, rest, hf⟩⟩

/-- The first stream a run names must be ready; it is the only one whose channel its command changes. -/
theorem State.canServe_cons_of_serve (s t : State) (d : Nat) (ds : List Nat) (h : serve d s = .next t) :
    s.canServe (d :: ds) ↔ t.canServe ds := by
  obtain ⟨hself, hother⟩ := serve_next_chan d s t h
  refine forall_congr' fun e => ?_
  by_cases he : e = d
  · subst he
    rw [List.count_cons_self, hself]
    refine ⟨fun hs n hn => hs (n + 1) (Nat.succ_lt_succ hn), fun ht n hn => ?_⟩
    cases n with
    | zero => exact Bool.and_eq_true_iff.mp (ready_of_serve_next e s t h)
    | succ n => exact ht n (Nat.lt_of_succ_lt_succ hn)
  · rw [List.count_cons_of_ne (Ne.symm he), hother e he]

/-- A run of commands answers exactly when every stream holds as many complete commands as the run takes of it. -/
theorem serveAll_answers_iff (ds : List Nat) (s : State) : (∃ t, serveAll ds s = .next t) ↔ s.canServe ds := by
  induction ds generalizing s with
  | nil => exact ⟨fun _ d n hn => absurd hn (Nat.not_lt_zero n), fun _ => ⟨s, rfl⟩⟩
  | cons d ds ih =>
    constructor
    · rintro ⟨t, ht⟩
      obtain ⟨u, hserve, hrun⟩ := serveAll_cons_next d ds s t ht
      exact (State.canServe_cons_of_serve s u d ds hserve).mpr ((ih u).mp ⟨t, hrun⟩)
    · intro hcan
      have hready : s.ready d = true := Bool.and_eq_true_iff.mpr (hcan d 0 (by simp))
      obtain ⟨op, rest, -, hserve⟩ := serve_of_ready d s hready
      obtain ⟨t, ht⟩ := (ih _).mpr ((State.canServe_cons_of_serve s _ d ds hserve).mp hcan)
      exact ⟨t, by simp only [serveAll, hserve, ht]⟩

/-- The channel a run answers: the channel served as often as its stream is named, or none if the run cannot be performed. -/
theorem answeredChan_serveAll (ds : List Nat) (s : State) (d : Nat) :
    (s.canServe ds → answeredChan d (serveAll ds s) = some (Channel.served^[ds.count d] (s.chan d))) ∧
    (¬ s.canServe ds → answeredChan d (serveAll ds s) = none) := by
  rw [← serveAll_answers_iff]
  constructor
  · rintro ⟨t, ht⟩
    rw [ht, answeredChan, serveAll_next_chan ds s t ht d]
  · intro hnone
    cases hrun : serveAll ds s with
    | next t => exact absurd ⟨t, hrun⟩ hnone
    | fault r => rfl
    | refused r => rfl

/-- Settles O35: whether a run answers, and how often it serves each channel, is told by how often it names each stream, and the two
orders name each stream equally often. -/
theorem interleavingIsUnobservable : Obligations.InterleavingIsUnobservable := by
  unfold Obligations.InterleavingIsUnobservable
  intro ds es s hperm d
  obtain ⟨hcan, hcannot⟩ := answeredChan_serveAll ds s d
  obtain ⟨hcan', hcannot'⟩ := answeredChan_serveAll es s d
  by_cases h : s.canServe ds
  · rw [hcan h, hcan' ((s.canServe_perm hperm).mp h), hperm.count_eq]
  · rw [hcannot h, hcannot' (mt (s.canServe_perm hperm).mpr h)]

end Sys2Proof.Machine
end

section
/-! SUPPORT. The commands of one stream in stream order (spec/20_memory.md R52), settled. -/

namespace Sys2Proof

/-- The decoder reads back a command of format OPLV that stands in full, whatever follows it. -/
theorem decode_oplv_append (o : Operation) (data rest : List Byte) (ho : o.format = .oplv) (hlen : data.length ≤ Config.maxArg) :
    decode (o.opcode :: (be32Bytes data.length ++ data) ++ rest) = .instr (o.command data) rest := by
  rw [List.cons_append, List.append_assoc, decode_oplv o _ ho, readArg_be32Bytes data rest hlen]

/-- The decoder reads back an operation the command port can express, whatever follows it (spec/30_encoding.md R66, R67). -/
theorem decode_encode_append (i : Instr) (rest : List Byte) (h : i.wf = true) : decode (encode i ++ rest) = .instr i rest := by
  have harg : i.arg.length ≤ Config.maxArg := (Instr.wf_iff i).mp h
  cases i with
  | encode p => exact decode_oplv_append .encode p rest rfl harg
  | feed c => exact decode_oplv_append .feed c rest rfl harg
  | close => exact decode_op .close rest rfl
  | status => exact decode_op .status rest rfl
  | reset => exact decode_op .reset rest rfl

end Sys2Proof

namespace Sys2Proof.Machine

/-- What taking the command of an operation leaves of a channel: its decoder as the operation leaves it, its response appended. -/
theorem Channel.served_of_encode (c : Channel) (i : Instr) (rest : List Byte) (hwf : i.wf = true)
    (hcmd : c.cmd = encode i ++ rest) :
    c.served = { dec := (Instr.op i c.dec).1, cmd := rest, resp := c.resp ++ (Instr.op i c.dec).2.bytes } :=
  c.served_of_frontOp (Instr.op i) rest (by rw [hcmd, frontOp, decode_encode_append i rest hwf])

/-- Taking the commands of operations that stand on a stream leaves of its channel what the operations leave of its decoder. -/
theorem serveAll_replicate_of_encode (is : List Instr) (rest : List Byte) (d : Nat) (s : State) (hwf : ∀ i ∈ is, i.wf = true)
    (hd : hasStream d = true) (hcmd : (s.chan d).cmd = is.flatMap encode ++ rest) :
    ∃ t, serveAll (List.replicate is.length d) s = .next t ∧
      t.chan d = { dec := (Instr.opAll is (s.chan d).dec).1, cmd := rest,
                   resp := (s.chan d).resp ++ (Instr.opAll is (s.chan d).dec).2.flatMap Response.bytes } := by
  induction is generalizing s with
  | nil =>
    have hrest : (s.chan d).cmd = rest := hcmd
    exact ⟨s, rfl, by simp [Instr.opAll, ← hrest]⟩
  | cons i is ih =>
    obtain ⟨hi, his⟩ := List.forall_mem_cons.mp hwf
    rw [List.flatMap_cons, List.append_assoc] at hcmd
    have hready : s.ready d = true := by
      simp [State.ready, hd, hcmd, decode_encode_append i _ hi, Decoded.complete]
    obtain ⟨op, more, -, hserve⟩ := serve_of_ready d s hready
    obtain ⟨hself, -⟩ := serve_next_chan d s _ hserve
    rw [Channel.served_of_encode _ i _ hi hcmd] at hself
    obtain ⟨t, ht, hchan⟩ := ih _ his (by rw [hself])
    refine ⟨t, by simp only [List.length_cons, List.replicate_succ, serveAll, hserve, ht], ?_⟩
    rw [hchan, hself]
    simp [Instr.opAll]

/-- Settles O38: both runs apply the operations one after another to the same decoder. -/
theorem commandsRunInStreamOrder : Obligations.CommandsRunInStreamOrder := by
  unfold Obligations.CommandsRunInStreamOrder
  intro is rest d s hwf hd hcmd
  obtain ⟨t, ht, hserved⟩ := serveAll_replicate_of_encode is rest d s hwf hd hcmd
  obtain ⟨u, hu, -, hperformed⟩ := execAll_answers is { s with port := d } hd
  have hchan : ({ s with port := d } : State).chan d = s.chan d := rfl
  rw [hchan] at hperformed
  exact ⟨t, u, ht, hu, by rw [hserved, hperformed], by rw [hserved, hperformed], by rw [hserved]⟩

end Sys2Proof.Machine
end

section
/-! SUPPORT. A stream of frames fed in chunks (spec/20_memory.md R51, spec/41_decoder.md R97, R99), settled. -/

namespace Sys2Proof.Machine

/-- EXTRACT of a complete frame and what follows it (R96). -/
theorem extract_wireFrame_append (p rest : List Byte) (h : p.length ≤ 65535) :
    extract (wireFrame p ++ rest) = (p :: (extract rest).1, (extract rest).2) := by
  have hframe : ¬ (p ++ rest).length < p.length := by simp
  rw [wireFrame, List.cons_append, List.cons_append, extract_two, be16_hi8_lo8 _ h, if_neg hframe, List.take_left, List.drop_left]

/-- EXTRACT reads a stream of frames back, and leaves a tail that holds no complete frame (R77, R97). -/
theorem extract_wireStream_append (ps : List (List Byte)) (tail : List Byte) (hps : ∀ p ∈ ps, p.length ≤ 65535)
    (htail : Rest tail) :
    extract (wireStream ps ++ tail) = (ps, tail) := by
  induction ps with
  | nil => exact extract_of_rest tail htail
  | cons p ps ih =>
    obtain ⟨hp, hps⟩ := List.forall_mem_cons.mp hps
    have hcons : wireStream (p :: ps) ++ tail = wireFrame p ++ (wireStream ps ++ tail) := by simp [wireStream]
    rw [hcons, extract_wireFrame_append p _ hp, ih hps]

/-- The payloads of each chunk's response, when chunks are fed one after another to an open decoder with that buffer. -/
def feedOutputs : List Byte → List (List Byte) → List (List (List Byte))
  | _, [] => []
  | db, c :: cs => (extract (db ++ c)).1 :: feedOutputs (extract (db ++ c)).2 cs

theorem feedOutputs_length (db : List Byte) (cs : List (List Byte)) : (feedOutputs db cs).length = cs.length := by
  induction cs generalizing db with
  | nil => rfl
  | cons c cs ih => simp only [feedOutputs, List.length_cons, ih]

/-- The first responses depend on the first chunks alone. -/
theorem feedOutputs_take (db : List Byte) (cs : List (List Byte)) (j : Nat) :
    (feedOutputs db cs).take j = feedOutputs db (cs.take j) := by
  induction cs generalizing db j with
  | nil => simp [feedOutputs]
  | cons c cs ih =>
    cases j with
    | zero => rfl
    | succ j => simp only [feedOutputs, List.take_succ_cons, ih]

/-- All chunks together emit what the whole byte string emits (R99). -/
theorem feedOutputs_flatten (db : List Byte) (cs : List (List Byte)) (h : Rest db) :
    (feedOutputs db cs).flatten = (extract (db ++ cs.flatten)).1 := by
  induction cs generalizing db with
  | nil => simp [feedOutputs, extract_of_rest db h]
  | cons c cs ih =>
    rw [feedOutputs, List.flatten_cons, List.flatten_cons, ih _ (extract_rest _), ← List.append_assoc, extract_append (db ++ c)]

/-- FEED of an open decoder (R95). -/
theorem Instr.op_feed_open (c db : List Byte) :
    Instr.op (.feed c) { db := db, closed := false } =
      ({ db := (extract (db ++ c)).2, closed := false }, .payloads (extract (db ++ c)).1) := rfl

/-- Chunks fed one after another to an open decoder leave the buffer that the whole byte string leaves (R99). -/
theorem Instr.opAll_feed (db : List Byte) (cs : List (List Byte)) (h : Rest db) :
    Instr.opAll (cs.map .feed) { db := db, closed := false } =
      ({ db := (extract (db ++ cs.flatten)).2, closed := false }, (feedOutputs db cs).map .payloads) := by
  induction cs generalizing db with
  | nil => simp [Instr.opAll, feedOutputs, extract_of_rest db h]
  | cons c cs ih =>
    rw [List.map_cons, Instr.opAll, Instr.op_feed_open, ih _ (extract_rest _), List.flatten_cons, ← List.append_assoc,
      extract_append (db ++ c)]
    rfl

/-- Settles O29: any chunks, and so the first j of them, emit what EXTRACT emits of their concatenation, and EXTRACT reads the whole
stream back as its payloads and its tail. -/
theorem anyChunkingDeliversThePayloads : Obligations.AnyChunkingDeliversThePayloads := by
  unfold Obligations.AnyChunkingDeliversThePayloads
  intro ps tail cs s hps htail hcs hs hdec
  have hempty : Rest [] := rest_of_short [] (by simp)
  have hwhole : extract cs.flatten = (ps, tail) := by rw [hcs, extract_wireStream_append ps tail hps htail]
  have hemitted : ∀ cs, (feedOutputs [] cs).flatten = (extract cs.flatten).1 := fun cs => feedOutputs_flatten [] cs hempty
  obtain ⟨t, ht, -, hself⟩ := execAll_answers (cs.map .feed) s hs
  rw [hdec, Decoder.initial, Instr.opAll_feed [] cs hempty, List.nil_append, hwhole] at hself
  refine ⟨t, feedOutputs [] cs, ht, feedOutputs_length [] cs, ?_, fun j => ?_, by rw [hself], ?_⟩
  · rw [hemitted, hwhole]
  · rw [feedOutputs_take, hemitted]
  · rw [hself, List.flatMap_map]

end Sys2Proof.Machine
end

section
/-! SUPPORT. Commands and their bytes, both ways (spec/30_encoding.md R66 to R69), a command that has arrived in part (R74), and when
the step answers, settled. -/

namespace Sys2Proof

/-- Settles O4, by the decoder's lemma for a command that stands in full. -/
theorem decodeOfEncodeIsTheOperation : Obligations.DecodeOfEncodeIsTheOperation := by
  unfold Obligations.DecodeOfEncodeIsTheOperation
  exact decode_encode_append

/-! ### The opcode map -/

/-- The reserved opcodes (R69). -/
theorem operationOf_eq_none_iff (opc : Byte) : operationOf opc = none ↔ opc = 0x00 ∨ 0x06 ≤ opc.toNat := by
  have hzero : opc = 0x00 ↔ opc.toNat = 0 := BitVec.toNat_inj.symm
  rw [hzero]
  unfold operationOf
  split
  iterate 5 next h => simp [h]
  next h1 h2 h3 h4 h5 =>
    simp only [imp_false] at h1 h2 h3 h4 h5
    exact ⟨fun _ => by omega, fun _ => rfl⟩

/-- The rows of format OPLV (R68). -/
theorem Operation.format_eq_oplv_iff (o : Operation) : o.format = .oplv ↔ o = .encode ∨ o = .feed := by
  cases o <;> decide

/-- Settles O2, row by row. -/
theorem opcodeMapAndReservedOpcodes : Obligations.OpcodeMapAndReservedOpcodes := by
  unfold Obligations.OpcodeMapAndReservedOpcodes
  exact ⟨operationOf_opcode .encode, operationOf_opcode .feed, operationOf_opcode .close, operationOf_opcode .status,
    operationOf_opcode .reset, operationOf_eq_none_iff, Operation.format_eq_oplv_iff⟩

/-- Settles O3: each word is read by the decoder. -/
theorem sampleCommandBytesDecode : Obligations.SampleCommandBytesDecode := by
  unfold Obligations.SampleCommandBytesDecode
  decide

/-! ### What is read is what stands there -/

theorem encode_command_of_op (o : Operation) (h : o.format = .op) : encode (o.command []) = [o.opcode] := by
  cases o with
  | encode => cases h
  | feed => cases h
  | _ => rfl

theorem encode_command_of_oplv (o : Operation) (data : List Byte) (h : o.format = .oplv) :
    encode (o.command data) = o.opcode :: (be32Bytes data.length ++ data) := by
  rcases o.format_eq_oplv_iff.mp h with rfl | rfl <;> rfl

/-- The argument of a row's operation is no longer than the data read for it. -/
theorem Operation.command_wf (o : Operation) (data : List Byte) (h : data.length ≤ Config.maxArg) :
    (o.command data).wf = true := by
  rw [Instr.wf_iff]
  cases o with
  | encode => exact h
  | feed => exact h
  | _ => exact Nat.zero_le _

/-- Everything the decoder can read as an operation: a well-formed one, whose command bytes stand there. -/
theorem decode_eq_instr (bs rest : List Byte) (i : Instr) (h : decode bs = .instr i rest) :
    i.wf = true ∧ encode i ++ rest = bs := by
  match bs with
  | [] => cases h
  | opc :: tail =>
    rcases decode_cases opc tail with ⟨-, hd⟩ | ⟨o, rfl, hf, hd⟩ | ⟨o, -, -, -, hd⟩ |
        ⟨o, data, rest', rfl, hf, hr, hd⟩ <;>
      rw [hd] at h <;> cases h
    · exact ⟨o.command_wf [] (Nat.zero_le _), by rw [encode_command_of_op o hf]; rfl⟩
    · obtain ⟨hlen, rfl⟩ := readArg_some tail data rest hr
      exact ⟨o.command_wf data hlen, by rw [encode_command_of_oplv o data hf, List.cons_append, List.append_assoc]⟩

/-- Everything the decoder can read as a reserved opcode: that byte stands there. -/
theorem decode_eq_reserved (bs rest : List Byte) (opc : Byte) (h : decode bs = .reserved opc rest) :
    operationOf opc = none ∧ opc :: rest = bs := by
  match bs with
  | [] => cases h
  | b :: tail =>
    rcases decode_cases b tail with ⟨hn, hd⟩ | ⟨o, -, -, hd⟩ | ⟨o, -, -, -, hd⟩ |
        ⟨o, data, rest', -, -, -, hd⟩ <;>
      rw [hd] at h <;> cases h
    exact ⟨hn, rfl⟩

/-- Settles O5, by what the decoder can read. -/
theorem encodeOfDecodeIsTheBytes : Obligations.EncodeOfDecodeIsTheBytes := by
  unfold Obligations.EncodeOfDecodeIsTheBytes
  exact fun bs => ⟨fun i rest => decode_eq_instr bs rest i, fun opc rest => decode_eq_reserved bs rest opc⟩

/-! ### A command in part -/

/-- No strict beginning of a command is a command (R74): bytes read from it, with the missing ones after them, would be a second
reading of the whole command. -/
theorem decode_take_encode (i : Instr) (n : Nat) (hwf : i.wf = true) (hn : n < (encode i).length) :
    decode ((encode i).take n) = .incomplete := by
  have hwhole : decode (encode i) = .instr i [] := by simpa using decode_encode_append i [] hwf
  have hmissing : (encode i).drop n ≠ [] := by simpa [List.drop_eq_nil_iff] using hn
  cases hd : decode ((encode i).take n) with
  | incomplete => rfl
  | instr j rest =>
    obtain ⟨hj, hbytes⟩ := decode_eq_instr _ _ _ hd
    rw [← List.take_append_drop n (encode i), ← hbytes, List.append_assoc, decode_encode_append j _ hj] at hwhole
    injection hwhole with _ hrest
    exact absurd (List.append_eq_nil_iff.mp hrest).2 hmissing
  | reserved opc rest =>
    obtain ⟨hnone, hbytes⟩ := decode_eq_reserved _ _ _ hd
    rw [← List.take_append_drop n (encode i), ← hbytes, List.cons_append, decode_reserved opc _ hnone] at hwhole
    cases hwhole

/-- A command has as many bytes as its row's format says (R74). -/
theorem encode_length (i : Instr) : (encode i).length = commandSize i := by
  cases i with
  | encode p => exact (Laws.CommandShape.encode p).2.2
  | feed c => exact (Laws.CommandShape.feed c).2.2
  | _ => rfl

/-- Settles O6: the sizes by the shape of each command, and what a strict beginning decodes to. -/
theorem commandSizesAndUnfinishedCommands : Obligations.CommandSizesAndUnfinishedCommands := by
  unfold Obligations.CommandSizesAndUnfinishedCommands
  exact ⟨fun p => encode_length (.encode p), fun c => encode_length (.feed c), encode_length .close, encode_length .status,
    encode_length .reset, decode_take_encode⟩

end Sys2Proof

namespace Sys2Proof.Machine

theorem ready_of_hasStream (s : State) (d : Nat) (h : hasStream d = true) : s.ready d = (decode (s.chan d).cmd).complete := by
  simp only [State.ready, h, Bool.true_and]

/-- Bytes sent to an existing stream stand at the back of its command stream. -/
theorem applyHost_send_chan_self (d : Nat) (bytes : List Byte) (s : State) (h : hasStream d = true) :
    (applyHost (.send d bytes) s).chan d = { s.chan d with cmd := (s.chan d).cmd ++ bytes } := by
  simp only [applyHost, h, if_true, State.setChan_chan_self]

/-- Settles O7: the beginning decodes to no command, and with the rest sent the whole command stands on the stream. -/
theorem unfinishedCommandWaitsForItsRest : Obligations.UnfinishedCommandWaitsForItsRest := by
  unfold Obligations.UnfinishedCommandWaitsForItsRest
  intro i n d s hwf hd hn hcmd
  have hsent : decode ((applyHost (.send d ((encode i).drop n)) s).chan d).cmd = .instr i [] := by
    rw [applyHost_send_chan_self d _ s hd, hcmd, List.take_append_drop]
    simpa using decode_encode_append i [] hwf
  refine ⟨?_, ?_, hsent⟩
  · rw [ready_of_hasStream s d hd, hcmd, decode_take_encode i n hwf hn]; rfl
  · rw [ready_of_hasStream _ d hd, hsent]; rfl

/-! ### The step on a reserved opcode, and without a command -/

theorem frontOp_reserved (opc : Byte) (rest : List Byte) (h : operationOf opc = none) :
    frontOp (opc :: rest) = some (fun d => raise d (.illegalCommand opc), rest) := by
  simp only [frontOp, decode_reserved opc rest h]

/-- The step takes the command of the picked stream, performs it and answers it. -/
theorem step_of_pick_frontOp (s : State) (d : Nat) (op : Decoder → Decoder × Response) (rest : List Byte)
    (hpick : s.pick = some d) (hf : frontOp (s.chan d).cmd = some (op, rest)) :
    step s = .next ((s.take d rest).answer (op (s.chan d).dec).1 (op (s.chan d).dec).2) := by
  obtain ⟨op', rest', hf', hserve⟩ := serve_of_ready d s (pick_ready s d hpick)
  cases hf.symm.trans hf'
  exact (step_of_pick s d hpick).trans hserve

/-- Settles O9: the operation at the front of the picked stream raises `IllegalCommand` and leaves the decoder. -/
theorem reservedOpcodeAnswersIllegalCommand : Obligations.ReservedOpcodeAnswersIllegalCommand := by
  unfold Obligations.ReservedOpcodeAnswersIllegalCommand
  intro s d opc rest hpick hopc hcmd
  have hf := hcmd ▸ frontOp_reserved opc rest ((operationOf_eq_none_iff opc).mpr hopc)
  exact ⟨_, step_of_pick_frontOp s d _ rest hpick hf, served_chan_self s d rest _ _,
    fun e he => served_chan_other s d rest _ _ e he⟩

/-- A stream that holds a byte is listed in the table of channels. -/
theorem mem_chans_of_cmd_ne_nil (s : State) (d : Nat) (h : (s.chan d).cmd ≠ []) : d ∈ s.chans.map Prod.fst := by
  refine lookupChan_mem s.chans d fun hinitial => h ?_
  rw [State.chan, hinitial]
  rfl

/-- Why the block waits: a stream holds bytes, or none does. -/
theorem waitReason_cases (s : State) :
    (s.waitReason = .stuck ∧ ∃ d, (s.chan d).cmd ≠ []) ∨ (s.waitReason = .idle ∧ ∀ d, (s.chan d).cmd = []) := by
  unfold State.waitReason
  split
  · next hall =>
    refine .inr ⟨rfl, fun d => ?_⟩
    by_contra hne
    obtain ⟨e, he, rfl⟩ := List.mem_map.mp (mem_chans_of_cmd_ne_nil s d hne)
    exact hne (List.isEmpty_iff.mp (List.all_eq_true.mp hall e he))
  · next hall =>
    obtain ⟨e, -, hne⟩ : ∃ e ∈ s.chans, (s.chan e.1).cmd ≠ [] := by simpa using hall
    exact .inl ⟨rfl, e.1, hne⟩

/-- Without a picked stream the step stops. -/
theorem step_of_pick_none (s : State) (h : s.pick = none) : step s = .fault s.waitReason := by
  simp only [step, h]

/-- Settles O10: the stream picked is a ready one, and one is picked unless none is ready. -/
theorem stepAnswersExactlyWhenACommandIsReady : Obligations.StepAnswersExactlyWhenACommandIsReady := by
  unfold Obligations.StepAnswersExactlyWhenACommandIsReady
  intro s
  cases hpick : s.pick with
  | none =>
    refine ⟨fun ⟨d, hd⟩ => absurd (hd.symm.trans (pick_none s hpick d)) (by decide), fun _ => ?_⟩
    rw [step_of_pick_none s hpick]
    rcases waitReason_cases s with ⟨hw, h⟩ | ⟨hw, h⟩
    · exact .inl ⟨by rw [hw], h⟩
    · exact .inr ⟨by rw [hw], h⟩
  | some d =>
    have hready : s.ready d = true := pick_ready s d hpick
    obtain ⟨op, rest, -, hserve⟩ := serve_of_ready d s hready
    exact ⟨fun _ => ⟨_, (step_of_pick s d hpick).trans hserve⟩,
      fun hnone => absurd (hready.symm.trans (hnone d)) (by decide)⟩

end Sys2Proof.Machine
end

section
/-! SUPPORT. The bytes of a response, and reading a response back from the front of a response stream (spec/30_encoding.md R71 to
R73), settled. -/

namespace Sys2Proof.Machine

/-- Settles O45: each layout is the response's code and fields. -/
theorem responseLayouts : Obligations.ResponseLayouts := by
  unfold Obligations.ResponseLayouts
  exact ⟨fun _ => rfl, fun _ => rfl, fun _ => rfl, fun _ => rfl, rfl, fun _ => rfl, fun _ => rfl, fun _ => rfl, fun _ => rfl⟩

/-! ### Fields read back -/

theorem readBe16_hi8_lo8 (n : Nat) (h : n ≤ 65535) (rest : List Byte) : readBe16 (hi8 n :: lo8 n :: rest) = some (n, rest) := by
  simp only [readBe16, be16_hi8_lo8 n h]

theorem readBe64_be64Bytes (w : Word64) (rest : List Byte) : readBe64 (be64Bytes w ++ rest) = some (w, rest) := by
  simp only [be64Bytes, List.cons_append, List.nil_append, readBe64, be64_extractLsb']

/-- The phase byte of an `IncompleteInput` response is read back. -/
theorem readPhase_bit (ph : Phase) : readPhase ((BitVec.ofBool ph.bit).setWidth 8) = some ph := by
  cases ph <;> rfl

/-- Payload records are read back, each by its own length field. -/
theorem readRecords_flatMap_payloadRecord (ps : List (List Byte)) (rest : List Byte) (h : ∀ p ∈ ps, p.length ≤ 65535) :
    readRecords ps.length (ps.flatMap payloadRecord ++ rest) = some (ps, rest) := by
  induction ps with
  | nil => rfl
  | cons p ps ih =>
    obtain ⟨hp, hps⟩ := List.forall_mem_cons.mp h
    have hrecord : (p :: ps).flatMap payloadRecord ++ rest =
        hi8 p.length :: lo8 p.length :: (p ++ (ps.flatMap payloadRecord ++ rest)) := by simp [payloadRecord]
    simp only [hrecord, List.length_cons, readRecords, readBe16_hi8_lo8 _ hp, readBytes_append, ih hps]

/-! ### Responses read back -/

/-- The numbers an error records fit their fields. -/
def CodecError.Fits : CodecError → Prop
  | .payloadTooLarge n m => n ≤ Config.maxArg ∧ m ≤ 65535
  | .incompleteInput c _ => c ≤ Config.maxArg
  | .illegalCommand _ => True
  | .decoderClosed _ => True

/-- The response is one of those the layout table gives for an operation of that row, and its lengths and counts fit their fields
(R73). -/
def Response.Answers (o : Operation) : Response → Prop
  | .frame f => o = .encode ∧ f.length ≤ Config.maxArg
  | .payloads ps => o = .feed ∧ ps.length ≤ Config.maxArg ∧ ∀ p ∈ ps, p.length ≤ 65535
  | .done => o = .close ∨ o = .reset
  | .status _ => o = .status
  | .error e => e.Fits

theorem readTooLarge_fields (n m : Nat) (more : List Byte) (hn : n ≤ Config.maxArg) (hm : m ≤ 65535) :
    readTooLarge ((CodecError.payloadTooLarge n m).fields ++ more) = some (.payloadTooLarge n m, more) := by
  have hlt : n < 4294967296 := Nat.lt_succ_of_le hn
  simp [CodecError.fields, readTooLarge, readBe32_be32Bytes n hlt, readBe16_hi8_lo8 m hm]

theorem readIncomplete_fields (c : Nat) (ph : Phase) (more : List Byte) (hc : c ≤ Config.maxArg) :
    readIncomplete ((CodecError.incompleteInput c ph).fields ++ more) = some (.incompleteInput c ph, more) := by
  have hlt : c < 4294967296 := Nat.lt_succ_of_le hc
  simp [CodecError.fields, readIncomplete, readBe32_be32Bytes c hlt, readPhase_bit]

/-- An error response is read back whatever command it answers. -/
theorem readResponse_error (opc : Byte) (e : CodecError) (more : List Byte) (h : e.Fits) :
    readResponse opc ((Response.error e).bytes ++ more) = some (.error e, more) := by
  cases e with
  | payloadTooLarge n m => exact congrArg asError (readTooLarge_fields n m more h.1 h.2)
  | incompleteInput c ph => exact congrArg asError (readIncomplete_fields c ph more h)
  | illegalCommand o => rfl
  | decoderClosed o => rfl

/-- After status code 0x00 the fields are read by the operation's row. -/
theorem readResponse_ok (o : Operation) (r : Response) (more : List Byte) (h : r.code = 0x00) :
    readResponse o.opcode (r.bytes ++ more) = readOk o (r.fields ++ more) := by
  simp [Response.bytes, readResponse, h]

/-- A response to an operation is read back from the operation's opcode (R71). -/
theorem readResponse_bytes (o : Operation) (r : Response) (more : List Byte) (h : r.Answers o) :
    readResponse o.opcode (r.bytes ++ more) = some (r, more) := by
  cases r with
  | frame f =>
    obtain ⟨rfl, hf⟩ := h
    rw [readResponse_ok _ _ _ rfl]
    simp [Response.fields, readOk, readArg_be32Bytes f more hf]
  | payloads ps =>
    obtain ⟨rfl, hcount, hps⟩ := h
    have hlt : ps.length < 4294967296 := Nat.lt_succ_of_le hcount
    rw [readResponse_ok _ _ _ rfl]
    simp [Response.fields, readOk, readBe32_be32Bytes _ hlt, readRecords_flatMap_payloadRecord ps more hps]
  | done => rcases h with rfl | rfl <;> rfl
  | status w =>
    obtain rfl := h
    rw [readResponse_ok _ _ _ rfl]
    simp [Response.fields, readOk, readBe64_be64Bytes]
  | error e => exact readResponse_error o.opcode e more h

/-! ### What the operations answer fits its fields -/

/-- EXTRACT emits payloads of at most 65535 bytes, and at most one for every 2 bytes of the buffer. -/
theorem extract_payloads_le (db : List Byte) :
    2 * (extract db).1.length ≤ db.length ∧ ∀ p ∈ (extract db).1, p.length ≤ 65535 := by
  induction db using extract_induction with
  | short db h => simp [extract_short db h]
  | partialFrame h l body hb => simp [extract_two, hb]
  | frame h l body hb ih =>
    obtain ⟨hcount, hps⟩ := ih
    have hp : (body.take (be16 h l)).length ≤ 65535 := (List.length_take_le _ _).trans (be16_le h l)
    rw [List.length_drop] at hcount
    rw [extract_two, if_neg (by omega)]
    refine ⟨?_, List.forall_mem_cons.mpr ⟨hp, hps⟩⟩
    simp only [List.length_cons]
    omega

/-- The command port can express the frame of an accepted payload. -/
theorem wireFrame_length_le (p : List Byte) (h : p.length ≤ 65535) : (wireFrame p).length ≤ Config.maxArg :=
  calc (wireFrame p).length = p.length + 2 := rfl
    _ ≤ 65537 := Nat.add_le_add_right h 2
    _ ≤ Config.maxArg := by decide

theorem encodePayload_answers (p : List Byte) (h : p.length ≤ Config.maxArg) : (encodePayload p).Answers .encode := by
  unfold encodePayload
  split
  · exact ⟨h, le_rfl⟩
  · next hmax =>
    exact ⟨rfl, wireFrame_length_le p (Nat.not_lt.mp hmax)⟩

theorem feedOp_answers (c : List Byte) (d : Decoder) (hc : c.length ≤ Config.maxArg) (hd : d.AtRest) :
    (feedOp c d).2.Answers .feed := by
  unfold feedOp
  split
  · trivial
  · obtain ⟨hcount, hps⟩ := extract_payloads_le (d.db ++ c)
    have hdb : d.db.length ≤ 65536 := rest_length_le d.db hd.1
    rw [List.length_append] at hcount
    refine ⟨rfl, ?_, hps⟩
    simp only [Config.maxArg, dbAppend] at hc ⊢
    omega

/-- At rest, the count of buffered bytes a teardown reports fits its field. -/
theorem Decoder.AtRest.incompleteInput_fits {d : Decoder} (h : d.AtRest) (ph : Phase) :
    (CodecError.incompleteInput d.db.length ph).Fits :=
  (rest_length_le d.db h.1).trans (by decide)

theorem closeOp_answers (d : Decoder) (hd : d.AtRest) : (closeOp d).2.Answers .close := by
  unfold closeOp
  split
  · trivial
  · dsimp only
    split
    · exact hd.incompleteInput_fits (phase d.db)
    · exact .inl rfl

theorem resetOp_answers (d : Decoder) (hd : d.AtRest) : (resetOp d).2.Answers .reset := by
  unfold resetOp
  split
  · exact hd.incompleteInput_fits (phase d.db)
  · exact .inr rfl

/-- What a well-formed operation answers at a decoder at rest is one of its row's responses, and fits its fields. -/
theorem Instr.op_answers (i : Instr) (d : Decoder) (hi : i.wf = true) (hd : d.AtRest) :
    (Instr.op i d).2.Answers i.operation := by
  have harg : i.arg.length ≤ Config.maxArg := (Instr.wf_iff i).mp hi
  cases i with
  | encode p => exact encodePayload_answers p harg
  | feed c => exact feedOp_answers c d harg hd
  | close => exact closeOp_answers d hd
  | status => rfl
  | reset => exact resetOp_answers d hd

/-- Settles O46: the operation answers one of its row's responses, and every such response is read back; `IllegalCommand` is read
back whatever the opcode. -/
theorem responsesAreSelfDelimiting : Obligations.ResponsesAreSelfDelimiting := by
  unfold Obligations.ResponsesAreSelfDelimiting
  refine ⟨fun i s hi hs hd => ?_, fun opc o more => readResponse_error opc (.illegalCommand o) more trivial⟩
  obtain ⟨t, ht, -, -, hchan⟩ := exec_answers i s hs
  exact ⟨t, (Instr.op i (s.chan s.port).dec).2, ht, by rw [hchan],
    fun more => readResponse_bytes i.operation _ more (Instr.op_answers i _ hi hd)⟩

end Sys2Proof.Machine
end

section
/-! SUPPORT. The assembler's operation lines and pseudo-instructions (spec/30_encoding.md R75, R76), settled. -/

namespace Sys2Proof.Machine

/-! ### Lines and byte expressions -/

theorem encode_wf_iff (p : List Byte) : (Instr.encode p).wf = true ↔ p.length ≤ Config.maxArg := Instr.wf_iff _

theorem feed_wf_iff (c : List Byte) : (Instr.feed c).wf = true ↔ c.length ≤ Config.maxArg := Instr.wf_iff _

theorem AsmLine.expand_encode (e : ByteExpr) (p : List Byte) (he : e.value = some p) (hp : p.length ≤ Config.maxArg) :
    (AsmLine.encode e).expand = some [.encode p] := by
  simp [AsmLine.expand, he, (encode_wf_iff p).mpr hp]

theorem AsmLine.expand_feed (e : ByteExpr) (c : List Byte) (he : e.value = some c) (hc : c.length ≤ Config.maxArg) :
    (AsmLine.feed e).expand = some [.feed c] := by
  simp [AsmLine.expand, he, (feed_wf_iff c).mpr hc]

/-- A program assembles line by line. -/
theorem assemble_cons (a : AsmLine) (rest : List AsmLine) (is js : List Instr) (ha : a.expand = some is)
    (hrest : assemble rest = some js) : assemble (a :: rest) = some (is ++ js) := by
  simp only [assemble, ha, hrest]

/-- Settles O55: each line by its expansion, each byte expression by its rule. -/
theorem operationLinesAssemble : Obligations.OperationLinesAssemble := by
  unfold Obligations.OperationLinesAssemble
  refine ⟨fun e p he hp => ⟨?_, rfl, rfl, rfl, rfl, rfl⟩, fun _ => rfl, fun _ _ => rfl, fun cs hcs => ?_,
    fun x y a b hx hy => ?_⟩
  · exact assemble_cons _ _ _ _ (AsmLine.expand_encode e p he hp) (assemble_cons _ _ _ _ (AsmLine.expand_feed e p he hp) rfl)
  · simp only [ByteExpr.value, List.all_eq_true.mpr hcs, if_true]
  · simp only [ByteExpr.value, hx, hy]

/-! ### The chunks of FEEDSPLIT -/

theorem splitChunks_nil (k : Nat) : splitChunks [] k = [[]] := rfl

/-- The number of chunks is the length over the chunk size, rounded up. -/
theorem splitChunks_of_ne_nil (s : List Byte) (k : Nat) (h : s ≠ []) :
    splitChunks s k = (List.range (s.length ⌈/⌉ k)).map fun i => (s.drop (i * k)).take k := by
  rw [splitChunks, if_neg h, Nat.ceilDiv_eq_add_pred_div]

/-- The first `n` chunks are the first `n * k` bytes. -/
theorem flatten_map_range_chunk (s : List Byte) (k n : Nat) :
    ((List.range n).map fun i => (s.drop (i * k)).take k).flatten = s.take (n * k) := by
  induction n with
  | zero => simp
  | succ n ih => rw [List.range_succ, List.map_append, List.flatten_append, ih, Nat.succ_mul, List.take_add]; simp

theorem splitChunks_flatten (s : List Byte) (k : Nat) (hk : 1 ≤ k) : (splitChunks s k).flatten = s := by
  by_cases hs : s = []
  · rw [hs]; rfl
  · have hcover : s.length ≤ k * (s.length ⌈/⌉ k) := (ceilDiv_le_iff_le_mul hk).mp le_rfl
    rw [splitChunks_of_ne_nil s k hs, flatten_map_range_chunk, List.take_of_length_le (by rwa [Nat.mul_comm])]

/-- Every chunk is `s(i*k .. min((i+1)*k, |s|))` for some i (R76). -/
theorem eq_of_mem_splitChunks (s c : List Byte) (k : Nat) (h : c ∈ splitChunks s k) : ∃ i, c = (s.drop (i * k)).take k := by
  by_cases hs : s = []
  · subst hs
    exact ⟨0, by simpa [splitChunks_nil] using h⟩
  · rw [splitChunks_of_ne_nil s k hs] at h
    obtain ⟨i, -, rfl⟩ := List.mem_map.mp h
    exact ⟨i, rfl⟩

theorem length_le_of_mem_splitChunks (s c : List Byte) (k : Nat) (h : c ∈ splitChunks s k) :
    c.length ≤ k ∧ c.length ≤ s.length := by
  obtain ⟨i, rfl⟩ := eq_of_mem_splitChunks s c k h
  simp only [List.length_take, List.length_drop]
  omega

/-- No chunk of a string that is not empty is empty: each begins before the string's end. -/
theorem ne_nil_of_mem_splitChunks (s c : List Byte) (k : Nat) (hk : 1 ≤ k) (hs : s ≠ []) (h : c ∈ splitChunks s k) :
    c ≠ [] := by
  rw [splitChunks_of_ne_nil s k hs] at h
  obtain ⟨i, hi, rfl⟩ := List.mem_map.mp h
  have hbegin : k * i < s.length := lt_of_not_ge fun hle =>
    Nat.not_le.mpr (List.mem_range.mp hi) ((ceilDiv_le_iff_le_mul hk).mpr hle)
  rw [Nat.mul_comm] at hbegin
  apply List.ne_nil_of_length_pos
  simp only [List.length_take, List.length_drop]
  omega

theorem splitChunks_length (s : List Byte) (k : Nat) (hs : s ≠ []) : (splitChunks s k).length = (s.length + k - 1) / k := by
  simp [splitChunks, hs]

theorem splitChunks_getElem? (s : List Byte) (k i : Nat) (hs : s ≠ []) (hi : i < (splitChunks s k).length) :
    (splitChunks s k)[i]? = some ((s.drop (i * k)).take k) := by
  rw [splitChunks_length s k hs] at hi
  simp [splitChunks, hs, hi]

/-! ### The pseudo-instructions -/

theorem AsmLine.expand_feedSplit (e : ByteExpr) (s : List Byte) (k : Nat) (he : e.value = some s) (hk : 1 ≤ k)
    (hs : s.length ≤ Config.maxArg) : (AsmLine.feedSplit e k).expand = some ((splitChunks s k).map .feed) := by
  have hwf : ((splitChunks s k).map Instr.feed).all Instr.wf = true := by
    rw [List.all_map, List.all_eq_true]
    exact fun c hc => (feed_wf_iff c).mpr ((length_le_of_mem_splitChunks s c k hc).2.trans hs)
  simp only [AsmLine.expand, if_neg (Nat.ne_of_gt hk), he, Option.map_some, hwf, if_true]

theorem AsmLine.expand_loopback (e : ByteExpr) (p : List Byte) (he : e.value = some p) (hp : p.length ≤ 65535) :
    (AsmLine.loopback e).expand = some [.encode p, .feed (wireFrame p)] := by
  have hencode : (Instr.encode p).wf = true := (encode_wf_iff p).mpr (hp.trans (by decide))
  have hfeed : (Instr.feed (wireFrame p)).wf = true := (feed_wf_iff _).mpr (wireFrame_length_le p hp)
  simp [AsmLine.expand, he, Nat.not_lt.mpr hp, hencode, hfeed]

theorem AsmLine.expand_loopback_too_long (e : ByteExpr) (p : List Byte) (he : e.value = some p) (hp : 65535 < p.length) :
    (AsmLine.loopback e).expand = none := by
  simp [AsmLine.expand, he, hp]

/-- Settles O54: each expansion by its lemma, and the chunks of FEEDSPLIT by the lemmas on `splitChunks`. -/
theorem pseudoInstructionsExpand : Obligations.PseudoInstructionsExpand := by
  unfold Obligations.PseudoInstructionsExpand
  refine ⟨fun b => rfl, AsmLine.expand_feedSplit, fun s k hk => ?_, fun e => rfl, AsmLine.expand_loopback,
    AsmLine.expand_loopback_too_long⟩
  refine ⟨splitChunks_flatten s k hk, fun c hc => (length_le_of_mem_splitChunks s c k hc).1, fun hs => ?_, fun hs => ?_⟩
  · rw [hs, splitChunks_nil]
  · exact ⟨splitChunks_length s k hs, fun i hi => splitChunks_getElem? s k i hs hi,
      fun c hc => ne_nil_of_mem_splitChunks s c k hk hs hc⟩

end Sys2Proof.Machine
end

section
/-! SUPPORT. ENCODE and the frame it answers (spec/40_encoder.md), settled. -/

namespace Sys2Proof.Machine

/-! ### What the Encoder answers -/

/-- A payload within the maximum is answered with its frame (R85). -/
theorem encodePayload_of_le (p : List Byte) (h : p.length ≤ 65535) : encodePayload p = .frame (wireFrame p) :=
  if_neg (Nat.not_lt.mpr h)

/-- A payload over the maximum is answered with its length and the maximum (R85, R86). -/
theorem encodePayload_of_lt (p : List Byte) (h : 65535 < p.length) :
    encodePayload p = .error (.payloadTooLarge p.length 65535) := if_pos h

/-- ENCODE passes the decoder through and answers what the Encoder gives (R85). -/
theorem Instr.op_encode (p : List Byte) (d : Decoder) : Instr.op (.encode p) d = (d, encodePayload p) := rfl

/-- ENCODE at an existing port leaves the decoder and answers what the Encoder gives (R85, R87). -/
theorem exec_encode (p : List Byte) (s : State) (h : hasStream s.port = true) :
    exec (.encode p) s = .next (s.answer (s.chan s.port).dec (encodePayload p)) := by
  rw [exec_of_hasStream (.encode p) s h, Instr.op_encode]

/-- Settles O14: the response is the Encoder's, which reads no state; and an ENCODE leaves the decoder, on which alone the outcome of
the operation after it depends. -/
theorem encodeIsPure : Obligations.EncodeIsPure := by
  unfold Obligations.EncodeIsPure
  refine ⟨fun p => ⟨encodePayload p, exec_encode p⟩, fun p i s t h => ?_⟩
  obtain ⟨hs, -⟩ := exec_next (.encode p) s t h
  obtain ⟨hport, -, ht⟩ := exec_next_chan (.encode p) s t h
  have hdec : (t.chan s.port).dec = (s.chan s.port).dec := by rw [ht, Instr.op_encode]
  obtain ⟨u, hu, -, -, huchan⟩ := exec_answers i s hs
  obtain ⟨v, hv, -, -, hvchan⟩ := exec_answers i t (by rwa [hport])
  rw [hport, hdec] at hvchan
  refine ⟨u, v, (Instr.op i (s.chan s.port).dec).2.bytes, hu, hv, ?_, ?_, ?_⟩
  · rw [hvchan, huchan]
  · rw [huchan]
  · rw [hvchan]

/-- Settles O12: the two sides of the size check. -/
theorem encodeAnswersFrameOrPayloadTooLarge : Obligations.EncodeAnswersFrameOrPayloadTooLarge := by
  unfold Obligations.EncodeAnswersFrameOrPayloadTooLarge
  intro p s hs
  refine ⟨rfl, fun hle => ?_, fun hlt => ?_⟩
  · rw [exec_encode p s hs, encodePayload_of_le p hle, wireFrame]
  · rw [exec_encode p s hs, encodePayload_of_lt p hlt]

/-- Settles O13: the error, and so its response, names of the payload its length alone. -/
theorem oversizeResponseCarriesNoPayloadByte : Obligations.OversizeResponseCarriesNoPayloadByte := by
  unfold Obligations.OversizeResponseCarriesNoPayloadByte
  intro p q s hs hp hlen
  refine ⟨s.answer (s.chan s.port).dec (.error (.payloadTooLarge p.length 65535)), ?_, ?_, ?_, ?_⟩
  · rw [exec_encode p s hs, encodePayload_of_lt p hp]
  · rw [exec_encode q s hs, encodePayload_of_lt q (hlen ▸ hp), hlen]
  · rw [State.answer_chan_port]; rfl
  · rw [State.answer_chan_port]

/-! ### The frame -/

theorem wireFrame_drop_two (p : List Byte) : (wireFrame p).drop 2 = p := rfl

theorem wireFrame_injective : Function.Injective wireFrame := Function.LeftInverse.injective wireFrame_drop_two

/-- The length field of an accepted payload's frame (R60). -/
theorem expectedLength_wireFrame (p : List Byte) (h : p.length ≤ 65535) : expectedLength (wireFrame p) = some p.length := by
  rw [wireFrame, expectedLength_two, be16_hi8_lo8 p.length h]

/-- EXTRACT of one accepted payload's frame gives that payload and leaves nothing (R96). -/
theorem extract_wireFrame (p : List Byte) (h : p.length ≤ 65535) : extract (wireFrame p) = ([p], []) := by
  simpa [extract_short] using extract_wireFrame_append p [] h

/-- Settles O15: the length field by its lemma, EXTRACT by its lemma, and dropping the length field undoes the framing. -/
theorem frameOfAnAcceptedPayload : Obligations.FrameOfAnAcceptedPayload := by
  unfold Obligations.FrameOfAnAcceptedPayload
  refine ⟨fun p hp => ?_, fun p q _ _ heq => wireFrame_injective heq⟩
  have hlength : (wireFrame p).length = 2 + p.length := Nat.add_comm p.length 2
  exact ⟨hlength, expectedLength_wireFrame p hp, wireFrame_drop_two p, extract_wireFrame p hp⟩

/-- FEED of an accepted payload's frame to a fresh decoder leaves it fresh and answers that payload (R95). -/
theorem Instr.op_feed_wireFrame_initial (p : List Byte) (h : p.length ≤ 65535) :
    Instr.op (.feed (wireFrame p)) Decoder.initial = (Decoder.initial, .payloads [p]) := by
  rw [Decoder.initial, Instr.op_feed_open, List.nil_append, extract_wireFrame p h]

/-- Settles O30: ENCODE answers the frame and leaves the decoder fresh, and FEED of the frame to a fresh decoder gives the payload. -/
theorem encodeThenFeedReturnsThePayload : Obligations.EncodeThenFeedReturnsThePayload := by
  unfold Obligations.EncodeThenFeedReturnsThePayload
  intro p s hp hs hfresh
  obtain ⟨t, ht, hport, -, htchan⟩ := exec_answers (.encode p) s hs
  have hencode : Instr.op (.encode p) (s.chan s.port).dec = (Decoder.initial, .frame (wireFrame p)) := by
    rw [Instr.op_encode, hfresh, encodePayload_of_le p hp]
  rw [hencode] at htchan
  obtain ⟨u, hu, -, -, huchan⟩ := exec_answers (.feed (wireFrame p)) t (by rwa [hport])
  have hfeed : Instr.op (.feed (wireFrame p)) (t.chan s.port).dec = (Decoder.initial, .payloads [p]) := by
    rw [htchan, Instr.op_feed_wireFrame_initial p hp]
  rw [hport, hfeed] at huchan
  exact ⟨wireFrame p, t, u, ht, hu, by rw [htchan], by rw [huchan], by rw [huchan]⟩

end Sys2Proof.Machine
end

section
/-! SUPPORT. EXTRACT as the parse of a buffer into frames and a remainder (spec/41_decoder.md R96 to R98, R102), and as the
byte-serial realization runs it (R105), settled. -/

namespace Sys2Proof.Machine

/-! ### One round -/

/-- EXTRACT of an incomplete frame (R101). -/
theorem extract_partialFrame (h l : Byte) (body : List Byte) (hb : body.length < be16 h l) :
    extract (h :: l :: body) = ([], h :: l :: body) :=
  extract_of_rest _ ((rest_two h l body).mpr hb)

/-- EXTRACT of a complete frame and the bytes after it (R101). -/
theorem extract_frame (h l : Byte) (body : List Byte) (hb : be16 h l ≤ body.length) :
    extract (h :: l :: body) =
      (body.take (be16 h l) :: (extract (body.drop (be16 h l))).1, (extract (body.drop (be16 h l))).2) :=
  (extract_two h l body).trans (if_neg (Nat.not_lt.mpr hb))

/-- Settles O24, by how much of the front frame is buffered. -/
theorem extractRoundByRound : Obligations.ExtractRoundByRound := by
  unfold Obligations.ExtractRoundByRound
  exact ⟨extract_short, extract_partialFrame, extract_frame⟩

/-- A resting buffer with a whole length field expects more bytes than it holds, so never 0 of them (R102). -/
theorem expectedLength_ne_zero_of_rest (db : List Byte) (h : Rest db) : expectedLength db ≠ some 0 := by
  match db, h with
  | [], _ => simp
  | [b], _ => simp
  | a :: b :: body, h =>
    have hbody : body.length < be16 a b := (rest_two a b body).mp h
    rw [expectedLength_two, Ne, Option.some_inj]
    omega

/-- Settles O27: 0x00 0x00 is the frame of the empty payload, which any bytes after it complete, and no resting buffer begins with
it. -/
theorem zeroLengthFrameCompletesAtOnce : Obligations.ZeroLengthFrameCompletesAtOnce := by
  unfold Obligations.ZeroLengthFrameCompletesAtOnce
  exact ⟨rfl, fun db => extract_wireFrame_append [] db (by simp), expectedLength_ne_zero_of_rest⟩

/-! ### The parse -/

/-- A complete frame at the front of a buffer is the wire frame of its payload (R60, R65). -/
theorem wireFrame_take_be16 (h l : Byte) (body : List Byte) (hb : be16 h l ≤ body.length) :
    wireFrame (body.take (be16 h l)) = h :: l :: body.take (be16 h l) := by
  rw [wireFrame, List.length_take_of_le hb, hi8_be16, lo8_be16]

/-- The frames of the payloads emitted, in order, and what is left are the buffer (R96, R97). -/
theorem wireStream_extract_append (db : List Byte) : wireStream (extract db).1 ++ (extract db).2 = db := by
  induction db using extract_induction with
  | short db h => rw [extract_short db h]; rfl
  | partialFrame h l body hb => rw [extract_partialFrame h l body hb]; rfl
  | frame h l body hb ih =>
    rw [extract_frame h l body hb, wireStream, List.flatMap_cons, List.append_assoc, ← wireStream, ih,
      wireFrame_take_be16 h l body hb, List.cons_append, List.cons_append, List.take_append_drop]

/-- Settles O25: the parse EXTRACT gives is one of the buffer, and EXTRACT reads any parse back as itself. -/
theorem extractIsTheOnlyFrameParse : Obligations.ExtractIsTheOnlyFrameParse := by
  unfold Obligations.ExtractIsTheOnlyFrameParse
  refine fun db => ⟨⟨(wireStream_extract_append db).symm, extract_rest db, (extract_payloads_le db).2⟩, ?_⟩
  intro ps rest hps hrest hdb
  rw [hdb, extract_wireStream_append ps rest hps hrest]
  exact ⟨rfl, rfl⟩

/-! ### Byte by byte -/

/-- EXTRACT after each byte of a chunk emits and leaves what EXTRACT with the whole chunk does (R105). -/
theorem serialFeed_eq_extract (db c : List Byte) (h : Rest db) : serialFeed db c = extract (db ++ c) := by
  induction c generalizing db with
  | nil => rw [List.append_nil, extract_of_rest db h]; rfl
  | cons b bs ih =>
    rw [List.append_cons, extract_append, ← ih _ (extract_rest _)]
    rfl

/-- Byte by byte, the buffer holds at most a resting buffer and the byte just taken (R105). -/
theorem serialOccupancy_le (db c : List Byte) (h : Rest db) : ∀ n ∈ serialOccupancy db c, n ≤ Config.dbCap := by
  induction c generalizing db with
  | nil => simp [serialOccupancy]
  | cons b bs ih =>
    have hbyte : (dbAppend db [b]).length ≤ Config.dbCap := by
      rw [dbAppend, List.length_append]
      exact Nat.succ_le_succ (rest_length_le db h)
    exact List.forall_mem_cons.mpr ⟨hbyte, ih _ (extract_rest _)⟩

/-- Settles O31, the equality and the bound by their lemmas. -/
theorem byteSerialFeedAgrees : Obligations.ByteSerialFeedAgrees := by
  unfold Obligations.ByteSerialFeedAgrees
  exact fun db c h => ⟨serialFeed_eq_extract db c h, serialOccupancy_le db c h⟩

end Sys2Proof.Machine
end

section
/-! SUPPORT. FEED and CLOSE of an open and of a closed decoder (spec/41_decoder.md R95, R99, R100, R103, R104), settled. -/

namespace Sys2Proof.Machine

/-- An operation at an existing port, told by what it gives of the addressed decoder. -/
theorem exec_of_op (i : Instr) (s : State) (d : Decoder) (r : Response) (hs : hasStream s.port = true)
    (hop : Instr.op i (s.chan s.port).dec = (d, r)) : exec i s = .next (s.answer d r) := by
  rw [exec_of_hasStream i s hs, hop]

/-- An open decoder is told by its buffer. -/
theorem Decoder.eq_of_open (d : Decoder) (h : d.closed = false) : d = { db := d.db, closed := false } := by
  rw [← h]

/-! ### FEED -/

/-- FEED of an open decoder (R95). -/
theorem Instr.op_feed_of_open (c : List Byte) (d : Decoder) (h : d.closed = false) :
    Instr.op (.feed c) d = ({ db := (extract (d.db ++ c)).2, closed := false }, .payloads (extract (d.db ++ c)).1) := by
  rw [d.eq_of_open h, Instr.op_feed_open]

/-- FEED of a closed decoder (R104). -/
theorem Instr.op_feed_of_closed (c : List Byte) (d : Decoder) (h : d.closed = true) :
    Instr.op (.feed c) d = (d, .error (.decoderClosed 0x02)) := if_pos h

/-- Settles O16, the closed and the open decoder by their lemmas. -/
theorem feedAppendsAndExtracts : Obligations.FeedAppendsAndExtracts := by
  unfold Obligations.FeedAppendsAndExtracts
  exact fun c s hs => ⟨rfl, fun hclosed => exec_of_op _ s _ _ hs (Instr.op_feed_of_closed c _ hclosed),
    fun hopen => exec_of_op _ s _ _ hs (Instr.op_feed_of_open c _ hopen)⟩

/-- Settles O26: the buffer with nothing appended is still at rest, and EXTRACT does nothing to it. -/
theorem emptyChunkChangesNothing : Obligations.EmptyChunkChangesNothing := by
  unfold Obligations.EmptyChunkChangesNothing
  intro s hs hopen hrest
  refine exec_of_op (.feed []) s _ _ hs ?_
  rw [Instr.op_feed_of_open [] _ hopen, List.append_nil, extract_of_rest _ hrest, ← Decoder.eq_of_open _ hopen]

/-! ### Chunks -/

/-- A chunk fed in two parts to an open decoder, which need not be at rest (R99). -/
theorem Instr.op_feed_append (a b db : List Byte) :
    Instr.op (.feed (a ++ b)) { db := db, closed := false } =
      ({ db := (extract ((extract (db ++ a)).2 ++ b)).2, closed := false },
        .payloads ((extract (db ++ a)).1 ++ (extract ((extract (db ++ a)).2 ++ b)).1)) := by
  rw [Instr.op_feed_open, ← List.append_assoc, extract_append (db ++ a)]

/-- The first chunk brings the buffer to rest, so one chunk and more emit together what the whole byte string emits, of any buffer
(R99). -/
theorem feedOutputs_cons_flatten (db c : List Byte) (cs : List (List Byte)) :
    (feedOutputs db (c :: cs)).flatten = (extract (db ++ (c :: cs).flatten)).1 := by
  rw [feedOutputs, List.flatten_cons, feedOutputs_flatten _ cs (extract_rest _), List.flatten_cons, ← List.append_assoc,
    extract_append (db ++ c)]

/-- One chunk and more, fed to an open decoder, leave the buffer that the whole byte string leaves, of any buffer (R99). -/
theorem Instr.opAll_feed_cons (db c : List Byte) (cs : List (List Byte)) :
    Instr.opAll ((c :: cs).map .feed) { db := db, closed := false } =
      ({ db := (extract (db ++ (c :: cs).flatten)).2, closed := false }, (feedOutputs db (c :: cs)).map .payloads) := by
  rw [List.map_cons, Instr.opAll, Instr.op_feed_open, Instr.opAll_feed _ cs (extract_rest _), List.flatten_cons,
    ← List.append_assoc, extract_append (db ++ c)]
  rfl

/-- Settles O28: EXTRACT of the buffer with both chunks is EXTRACT with the first, then with the second of what is left; and so on
for any chunks after a first one. -/
theorem chunkSplitIsUnobservable : Obligations.ChunkSplitIsUnobservable := by
  unfold Obligations.ChunkSplitIsUnobservable
  refine ⟨fun a b s hs hopen => ?_, fun cs s hne hs hopen => ?_⟩
  · have hdec := Decoder.eq_of_open _ hopen
    obtain ⟨t, ht, hport, -, htchan⟩ := exec_answers (.feed a) s hs
    rw [hdec, Instr.op_feed_open] at htchan
    obtain ⟨u, hu, -, -, huchan⟩ := exec_answers (.feed b) t (by rwa [hport])
    rw [hport, htchan, Instr.op_feed_open] at huchan
    obtain ⟨v, hv, -, -, hvchan⟩ := exec_answers (.feed (a ++ b)) s hs
    rw [hdec, Instr.op_feed_append] at hvchan
    exact ⟨t, u, v, _, _, ht, hu, hv, by rw [huchan, hvchan], by rw [htchan], by rw [huchan, htchan], by rw [hvchan]⟩
  · obtain ⟨c, cs, rfl⟩ := List.exists_cons_of_ne_nil hne
    have hdec := Decoder.eq_of_open _ hopen
    obtain ⟨t, ht, -, htchan⟩ := execAll_answers ((c :: cs).map .feed) s hs
    rw [hdec, Instr.opAll_feed_cons] at htchan
    obtain ⟨v, hv, -, -, hvchan⟩ := exec_answers (.feed (c :: cs).flatten) s hs
    rw [hdec, Instr.op_feed_open, ← feedOutputs_cons_flatten] at hvchan
    exact ⟨t, v, _, ht, hv, by rw [htchan, hvchan], feedOutputs_length _ _, by rw [htchan, List.flatMap_map], by rw [hvchan]⟩

/-! ### CLOSE, and a closed decoder -/

/-- CLOSE of a closed decoder (R104). -/
theorem Instr.op_close_of_closed (d : Decoder) (h : d.closed = true) :
    Instr.op .close d = (d, .error (.decoderClosed 0x03)) := if_pos h

/-- CLOSE of an open decoder reports what was buffered, if anything was (R103). -/
theorem Instr.op_close_open (db : List Byte) :
    Instr.op .close { db := db, closed := false } =
      ({ db := [], closed := true }, if db = [] then .done else .error (.incompleteInput db.length (phase db))) := by
  cases db with
  | nil => rfl
  | cons b bs => rfl

/-- Settles O17: the closed decoder, and the open one with an empty and with a non-empty buffer. -/
theorem closeDiscardsAndReports : Obligations.CloseDiscardsAndReports := by
  unfold Obligations.CloseDiscardsAndReports
  refine ⟨rfl, fun s hs => ⟨fun hclosed => ?_, fun hopen hempty => ?_, fun hopen hbuffered => ?_⟩⟩ <;>
    refine exec_of_op .close s _ _ hs ?_
  · exact Instr.op_close_of_closed _ hclosed
  · rw [Decoder.eq_of_open _ hopen, Instr.op_close_open, if_pos hempty]
  · rw [Decoder.eq_of_open _ hopen, Instr.op_close_open, if_neg hbuffered]

/-- RESET of a closed decoder reports nothing (R121). -/
theorem Instr.op_reset_of_closed (d : Decoder) (h : d.closed = true) : Instr.op .reset d = (Decoder.initial, .done) :=
  if_neg fun hopen => Bool.false_ne_true (hopen.1.symm.trans h)

/-- Settles O20: each operation's answer at a closed decoder, read off the addressed channel. -/
theorem closedDecoderRefusesUntilReset : Obligations.ClosedDecoderRefusesUntilReset := by
  unfold Obligations.ClosedDecoderRefusesUntilReset
  intro s hs hclosed
  refine ⟨fun c => ?_, ?_, ?_, ?_, fun p hp => ?_⟩
  · exact ⟨_, exec_of_op _ s _ _ hs (Instr.op_feed_of_closed c _ hclosed), State.answer_chan_port ..⟩
  · exact ⟨_, exec_of_op _ s _ _ hs (Instr.op_close_of_closed _ hclosed), State.answer_chan_port ..⟩
  · exact ⟨_, exec_of_op .status s _ _ hs rfl, State.answer_chan_port ..⟩
  · exact ⟨_, exec_of_op .reset s _ _ hs (Instr.op_reset_of_closed _ hclosed),
      congrArg Channel.dec (State.answer_chan_port ..), congrArg Channel.resp (State.answer_chan_port ..)⟩
  · exact ⟨_, (exec_encode p s hs).trans (by rw [encodePayload_of_le p hp]), State.answer_chan_port ..⟩

end Sys2Proof.Machine
end

section
/-! SUPPORT. STATUS and RESET at an existing instance (spec/42_control.md R120, R121), settled. -/

namespace Sys2Proof.Machine

/-- STATUS passes the decoder through and answers its STATUS word (R120). -/
theorem Instr.op_status (d : Decoder) : Instr.op .status d = (d, .status (statusWord d)) := rfl

/-- Settles O18: STATUS answers the same of an open and of a closed decoder. -/
theorem statusAnswersTheStatusWord : Obligations.StatusAnswersTheStatusWord := by
  unfold Obligations.StatusAnswersTheStatusWord
  exact ⟨rfl, fun s hs => exec_of_op .status s _ _ hs (Instr.op_status _)⟩

/-- RESET of an open decoder with bytes buffered reports them (R121). -/
theorem Instr.op_reset_of_buffered (d : Decoder) (hopen : d.closed = false) (hbuffered : d.db ≠ []) :
    Instr.op .reset d = (Decoder.initial, .error (.incompleteInput d.db.length (phase d.db))) :=
  if_pos ⟨hopen, List.length_pos_iff.mpr hbuffered⟩

/-- RESET of a decoder with nothing buffered reports nothing (R121). -/
theorem Instr.op_reset_of_empty (d : Decoder) (hempty : d.db = []) : Instr.op .reset d = (Decoder.initial, .done) :=
  if_neg fun hreport => List.length_pos_iff.mp hreport.2 hempty

/-- Settles O19: the open decoder with bytes buffered, the closed one, and the one with an empty buffer. -/
theorem resetMakesAFreshDecoderAndReports : Obligations.ResetMakesAFreshDecoderAndReports := by
  unfold Obligations.ResetMakesAFreshDecoderAndReports
  refine ⟨rfl, fun s hs => ⟨fun hopen hbuffered => ?_, fun hquiet => ?_⟩⟩ <;>
    refine exec_of_op .reset s _ _ hs ?_
  · exact Instr.op_reset_of_buffered _ hopen hbuffered
  · rcases hquiet with hclosed | hempty
    · exact Instr.op_reset_of_closed _ hclosed
    · exact Instr.op_reset_of_empty _ hempty

end Sys2Proof.Machine
end

section
/-! SUPPORT. When the block reports `IncompleteInput`, what FEED of an open decoder answers, and which instances there are
(spec/60_exceptions.md R133, R139, R143), settled. -/

namespace Sys2Proof.Machine

/-! ### IncompleteInput -/

/-- ENCODE answers OK or `PayloadTooLarge` (R85). -/
theorem encodePayload_code (p : List Byte) : (encodePayload p).code = if 65535 < p.length then 0x01 else 0x00 := by
  split
  · next h => rw [encodePayload_of_lt p h]; rfl
  · next h => rw [encodePayload_of_le p (Nat.le_of_not_lt h)]; rfl

/-- FEED answers OK or `DecoderClosed` (R95). -/
theorem feedOp_code (c : List Byte) (d : Decoder) : (feedOp c d).2.code = if d.closed then 0x81 else 0x00 := by
  unfold feedOp
  split <;> rfl

/-- CLOSE answers `DecoderClosed` of a closed decoder, and `IncompleteInput` exactly of an open one with bytes buffered (R103). -/
theorem closeOp_code (d : Decoder) :
    (closeOp d).2.code = if d.closed then 0x81 else if d.db = [] then 0x00 else 0x02 := by
  obtain ⟨db, _ | _⟩ := d
  · cases db <;> rfl
  · rfl

/-- RESET answers `IncompleteInput` exactly of an open decoder with bytes buffered (R121). -/
theorem resetOp_code (d : Decoder) :
    (resetOp d).2.code = if d.closed = false ∧ d.db ≠ [] then 0x02 else 0x00 := by
  simp only [resetOp, List.length_pos_iff]
  split <;> rfl

/-- Only CLOSE and RESET of an open decoder with bytes buffered answer the code of `IncompleteInput` (R133). -/
theorem Instr.of_op_code_incompleteInput (i : Instr) (d : Decoder) (h : (Instr.op i d).2.code = 0x02) :
    d.closed = false ∧ d.db ≠ [] ∧ (i = .close ∨ i = .reset) := by
  cases i with
  | encode p =>
    have hcode := (encodePayload_code p).symm.trans h
    split at hcode <;> exact absurd hcode (by decide)
  | feed c =>
    have hcode := (feedOp_code c d).symm.trans h
    split at hcode <;> exact absurd hcode (by decide)
  | close =>
    have hcode := (closeOp_code d).symm.trans h
    split at hcode
    · exact absurd hcode (by decide)
    · next hopen =>
      split at hcode
      · exact absurd hcode (by decide)
      · next hbuffered => exact ⟨Bool.eq_false_iff.mpr hopen, hbuffered, .inl rfl⟩
  | status => exact absurd h (show (0x00 : Byte) ≠ 0x02 by decide)
  | reset =>
    have hcode := (resetOp_code d).symm.trans h
    split at hcode
    · next hreport => exact ⟨hreport.1, hreport.2, .inr rfl⟩
    · exact absurd hcode (by decide)

/-- What a step adds to a response stream: nothing, or the answer of the command at the front of that channel's own stream. -/
theorem step_next_resp (s t : State) (h : step s = .next t) (e : Nat) :
    (t.chan e).resp = (s.chan e).resp ∨
    ∃ op rest, frontOp (s.chan e).cmd = some (op, rest) ∧
      (t.chan e).resp = (s.chan e).resp ++ (op (s.chan e).dec).2.bytes := by
  obtain ⟨d, op, rest, -, -, hf, rfl⟩ := step_next s t h
  by_cases he : e = d
  · subst he
    exact .inr ⟨op, rest, hf, by rw [served_chan_self]⟩
  · exact .inl (by rw [served_chan_other _ _ _ _ _ _ he])

/-- Settles O42: the bytes added begin with 0x02, so they are the answer of the command at the front of that stream, and only CLOSE
and RESET of an open decoder with bytes buffered answer that code. -/
theorem incompleteInputOnlyAtTeardown : Obligations.IncompleteInputOnlyAtTeardown := by
  unfold Obligations.IncompleteInputOnlyAtTeardown
  intro s t d c ph h hresp
  rcases step_next_resp s t h d with hsame | ⟨op, rest, hf, hadded⟩
  · exact absurd (List.self_eq_append_right.mp (hsame.symm.trans hresp)) (List.cons_ne_nil _ _)
  · have hcode : (op (s.chan d).dec).2.code = 0x02 :=
      List.head_eq_of_cons_eq (List.append_cancel_left (hadded.symm.trans hresp))
    rcases frontOp_some _ _ _ hf with ⟨i, hdecode, rfl⟩ | ⟨opc, -, rfl⟩
    · obtain ⟨hopen, hbuffered, hteardown⟩ := Instr.of_op_code_incompleteInput i _ hcode
      rcases hteardown with rfl | rfl
      · exact ⟨hopen, hbuffered, rest, .inl hdecode⟩
      · exact ⟨hopen, hbuffered, rest, .inr hdecode⟩
    · exact absurd hcode (show (0x80 : Byte) ≠ 0x02 by decide)

/-! ### FEED of an open decoder -/

/-- Settles O43: FEED of an open decoder answers payloads, none or more, and leaves it open. -/
theorem noChunkIsAnErrorWhileOpen : Obligations.NoChunkIsAnErrorWhileOpen := by
  unfold Obligations.NoChunkIsAnErrorWhileOpen
  intro c s hs hopen
  exact ⟨_, (Response.payloads (extract ((s.chan s.port).dec.db ++ c)).1).fields,
    exec_of_op _ s _ _ hs (Instr.op_feed_of_open c _ hopen),
    congrArg (fun a => a.dec.closed) (State.answer_chan_port ..), congrArg Channel.resp (State.answer_chan_port ..)⟩

/-! ### The instances -/

theorem one_le_nDec : 1 ≤ Config.nDec := Nat.succ_pos Config.extraDecoders

/-- The streams are numbered 1 to `N_DEC`; that stream 1 is named apart adds none (R139). -/
theorem hasStream_iff (d : Nat) : hasStream d = true ↔ 1 ≤ d ∧ d ≤ Config.nDec := by
  have hone := one_le_nDec
  simp only [hasStream, Bool.or_eq_true, Bool.and_eq_true, beq_iff_eq, decide_eq_true_eq]
  omega

/-- Settles O53: the numbering by `hasStream_iff`, and `perform` asks for the stream before anything else. -/
theorem onlyExistingInstancesAreAddressed : Obligations.OnlyExistingInstancesAreAddressed := by
  unfold Obligations.OnlyExistingInstancesAreAddressed
  exact ⟨one_le_nDec, hasStream_iff, exec_of_no_stream⟩

end Sys2Proof.Machine
end

section
/-! SUPPORT. The RESET command against power-on reset, and the invariant under the host's events (spec/70_reset_and_hazards.md R150,
R151, R161), settled. -/

namespace Sys2Proof.Machine

/-- The response of RESET: the report of what an open decoder loses, else OK (R121). -/
theorem resetOp_bytes (d : Decoder) :
    (resetOp d).2.bytes =
      if d.closed = false ∧ d.db ≠ [] then (Response.error (.incompleteInput d.db.length (phase d.db))).bytes else [0x00] := by
  simp only [resetOp, List.length_pos_iff]
  split <;> rfl

/-- Settles O48: RESET leaves the initial decoder, which is what the reset state holds in every channel, beside an empty response
stream; what RESET appends is its response. -/
theorem resetCommandReachesThePowerOnState : Obligations.ResetCommandReachesThePowerOnState := by
  unfold Obligations.ResetCommandReachesThePowerOnState
  intro s hs
  obtain ⟨t, ht, -, -, hchan⟩ := exec_answers .reset s hs
  have hpowerOn : (applyHost .powerOn s).chan s.port = Channel.initial := State.reset_chan s.port
  refine ⟨t, ht, ?_, congrArg Channel.resp hpowerOn, ?_⟩
  · rw [hchan, hpowerOn]
    exact resetOp_dec (s.chan s.port).dec
  · rw [hchan, ← resetOp_bytes]
    rfl

/-- Settles O51, by the rule that takes the host's events one by one. -/
theorem hostEventKeepsTheInvariant : Obligations.HostEventKeepsTheInvariant := by
  unfold Obligations.HostEventKeepsTheInvariant
  exact fun e s h => h.applyHost e

end Sys2Proof.Machine
end
